-- ==== Sys2Proof/Word.lean ====
section
/-! DEFINITION. The widths of the machine's values (00_scope.md R6, R8, R9): every value is an unsigned bit vector
whose bit 0 is the least significant bit. -/

namespace Sys2Proof

/-- A nibble: a 4-bit value (R6 NIBBLE_BITS, R13). -/
abbrev Nibble := BitVec 4

/-- A key-schedule word: an 8-bit value (R6 WORD_BITS, R13). -/
abbrev KeyWord := BitVec 8

/-- A block, a cipher key, a round key, a register, a command word: a 16-bit value (R6 BLOCK_BITS, KEY_BITS; R7
BUS_DATA_BITS; R61). -/
abbrev Block := BitVec 16

/-- A host transaction word: 20 bits (30_encoding.md R67). -/
abbrev BusWord := BitVec 20

end Sys2Proof
end

