-- ==== Sys2Proof/Config.lean ====
section
/-! DEFINITION. What an implementation fixes (00_scope.md R7) and the values the spec leaves free. The opaque constants
have no body: nothing can evaluate them and no proof can know a value of theirs. The S-box parameter's TYPE stands here;
its default value stands in Machine/Substitution.lean. -/

namespace Sys2Proof

/-- A 4×4 table of nibbles, `box row col` (42_state_substitution.md R113: row = high 2 bits, col = low 2 bits). It is
constant data and never a part of the state (10_state.md R31). -/
abbrev SboxTable := BitVec 2 → BitVec 2 → Nibble

/-- The `any16` draws of 40_engine_control.md R87: the value that draw number `n` gives. FREE VALUE, notes/assumptions/4.
Safe for claims about one run: it constrains nothing. Unsafe for claims that compare two runs, see the log. -/
opaque Config.any16 : Nat → Block

/-- LATENCY (00_scope.md R7, 40_engine_control.md R86), drawn at each acceptance: how many host steps come before the
completion. Any number, so any placement after the acceptance; a number, so the completion comes (weak fairness, R86).
FREE VALUE, notes/assumptions/2 and 3. -/
opaque Config.latency : Nat → Nat

/-- BASE (00_scope.md R7, 20_memory.md R41): where the register window sits in the host's address space, counted in
registers. OPEN, notes/assumptions/12. -/
opaque Config.base : Nat

end Sys2Proof
end

