-- ==== Sys2Proof/Syntax.lean ====
section
/-! DEFINITION. The syntax: registers, commands, instructions (one constructor per row of spec/opcode_table.json), the
two encoded formats (30_encoding.md R60) and the lines of a host script (R68, R69). -/

namespace Sys2Proof

/-- The eight host-visible registers (10_state.md R20). -/
inductive Reg where
  | din | key | cmd | status | dout | rk0 | rk1 | rk2
deriving DecidableEq, Repr

/-- The six commands (30_encoding.md R62). -/
inductive Command where
  | enc | dec | keyexp | gfmul | sbox | sboxinv
deriving DecidableEq, Repr

/-- The instructions. The first six are CMDW words, the value written to CMD, with the ignored field IGN (R61) kept so
that no bit of the word is lost. The last two are BUS words (R67); DATA of a read is ignored and kept likewise
(notes/assumptions/16). Every field has the width the format gives it, so every term is a well-formed instruction. -/
inductive Instr where
  /-- ENC, OP = 0x1 (45_round_sequence.md R163). -/
  | enc (ign : BitVec 12)
  /-- DEC, OP = 0x2 (45_round_sequence.md R164). -/
  | dec (ign : BitVec 12)
  /-- KEYEXP, OP = 0x3 (44_key_schedule.md R151). -/
  | keyexp (ign : BitVec 12)
  /-- GFMUL, OP = 0x4 (41_galois.md R105). -/
  | gfmul (ign : BitVec 12)
  /-- SBOX, OP = 0x5 (42_state_substitution.md R120). -/
  | sbox (ign : BitVec 12)
  /-- SBOXINV, OP = 0x6 (42_state_substitution.md R121). -/
  | sboxinv (ign : BitVec 12)
  /-- A read transaction (20_memory.md R45). -/
  | rd (reg : Reg) (data : Block)
  /-- A write transaction (20_memory.md R46). -/
  | wr (reg : Reg) (data : Block)
deriving DecidableEq, Repr

/-- A word of one of the two encoded formats (30_encoding.md R60). The format is known before decoding. -/
inductive HostWord where
  /-- CMDW: the 16-bit value written to CMD (R61). -/
  | cmdw (v : Block)
  /-- BUS: a 20-bit host transaction (R67). -/
  | bus (t : BusWord)
deriving DecidableEq, Repr

/-- Why a word is no instruction. -/
inductive DecodeError where
  /-- A CMDW word whose OP is reserved (30_encoding.md R63). Raised by the decoder. Safe: the step still gives the
  write the effect of R81. -/
  | illegalOpcode (v : Block)
deriving DecidableEq, Repr

/-- One pending action at the host port, or the reset event. -/
inductive HostAction where
  /-- A transaction whose word is known before it is issued (R67; a CMDW word is a write of CMD). -/
  | word (w : HostWord)
  /-- `wrh REG`: a write whose DATA is the scratch variable h (R68). -/
  | wrh (reg : Reg)
  /-- `poll`: read STATUS into h, again while h[0] = 1 (R69). -/
  | poll
  /-- The reset event (70_reset_and_hazards.md R200). -/
  | reset
deriving DecidableEq, Repr

/-- The lines of a host script (R68) and its pseudo-instructions (R69). -/
inductive HostLine where
  | wr (reg : Reg) (imm : Block)
  | rd (reg : Reg)
  | wrh (reg : Reg)
  | poll
  | run (op : Block)
  | mv (dst src : Reg)
deriving DecidableEq, Repr

end Sys2Proof
end

