-- ==== Sys2Proof/WellFormed.lean ====
section
/-! DEFINITION. What must hold of the terms the machine is given. An instruction needs no check: its fields have the
widths of its format and every word of them is valid (30_encoding.md R61, R67). Three things do: the S-box parameter,
the host script, and the canonical form of a transaction. -/

namespace Sys2Proof

/-- The sixteen entries of a table in the order of the nibble that selects them (R113 "flattened"). -/
def SboxTable.entries (box : SboxTable) : List Nibble :=
  (List.range 4).flatMap fun r => (List.range 4).map fun c => box (BitVec.ofNat 2 r) (BitVec.ofNat 2 c)

/-- A conforming value of the parameter SBOX_FWD is a permutation of 0..15 (42_state_substitution.md R119,
93_implementation_defined.md I5): no entry stands twice. -/
def SboxTable.wf (box : SboxTable) : Bool :=
  decide box.entries.Nodup

/-- Whether a word is a read transaction, which gives h a value (30_encoding.md R67, R68). -/
def HostWord.isRead : HostWord → Bool
  | .cmdw _ => false
  | .bus t => !t.getLsbD 19

/-- A script is well-formed when every `wrh` has a read before it (30_encoding.md R68: "a script must `rd` before its
first `wrh`"). `defined` says whether h has been read into already. -/
def scriptWf (defined : Bool) : List HostAction → Bool
  | [] => true
  | .word w :: rest => scriptWf (defined || w.isRead) rest
  | .wrh _ :: rest => defined && scriptWf defined rest
  | .poll :: rest => scriptWf true rest
  | .reset :: rest => scriptWf defined rest

/-- The canonical form of an instruction: DATA of a read is 0 (30_encoding.md R67). Other values are valid too. -/
def Instr.canonical : Instr → Bool
  | .rd _ data => data == 0
  | .enc _ | .dec _ | .keyexp _ | .gfmul _ | .sbox _ | .sboxinv _ | .wr _ _ => true

end Sys2Proof
end

