-- ==== Sys2Proof/Decode.lean ====
section
/-! DEFINITION. Decoding, total on the words of both formats, rejecting by name; then the encoder; then the opcode
table as data. 30_encoding.md throughout. -/

namespace Sys2Proof

/-- The index of a register in the window (10_state.md R20). -/
def Reg.index : Reg → BitVec 3
  | .din => 0 | .key => 1 | .cmd => 2 | .status => 3 | .dout => 4 | .rk0 => 5 | .rk1 => 6 | .rk2 => 7

/-- The register at an index: every index names one (R20, 20_memory.md R41). -/
def Reg.ofIndex (i : BitVec 3) : Reg :=
  match i.toNat with
  | 0 => .din
  | 1 => .key
  | 2 => .cmd
  | 3 => .status
  | 4 => .dout
  | 5 => .rk0
  | 6 => .rk1
  | _ => .rk2

/-- The field OP of a command word (R61). -/
def opField (v : Block) : Nibble := v.extractLsb' 0 4

/-- The field IGN of a command word (R61). -/
def ignField (v : Block) : BitVec 12 := v.extractLsb' 4 12

/-- The opcode map (R62). -/
def Command.opcode : Command → Nibble
  | .enc => 0x1 | .dec => 0x2 | .keyexp => 0x3 | .gfmul => 0x4 | .sbox => 0x5 | .sboxinv => 0x6

/-- The command an opcode selects; 0x0 and 0x7 to 0xF select none (R62, R63). -/
def decodeOp (op : Nibble) : Option Command :=
  match op.toNat with
  | 1 => some .enc
  | 2 => some .dec
  | 3 => some .keyexp
  | 4 => some .gfmul
  | 5 => some .sbox
  | 6 => some .sboxinv
  | _ => none

/-- `decode_cmd` (R64): `none` is ILLEGAL. -/
def decodeCmd (v : Block) : Option Command := decodeOp (opField v)

/-- The instruction that starts a command. -/
def Command.instr : Command → BitVec 12 → Instr
  | .enc => .enc | .dec => .dec | .keyexp => .keyexp | .gfmul => .gfmul | .sbox => .sbox | .sboxinv => .sboxinv

/-- The command word of a command: OP in bits 3:0, IGN in bits 15:4 (R61). -/
def cmdWord (c : Command) (ign : BitVec 12) : Block := ign ++ c.opcode

/-- Decoding a CMDW word (R61 to R64). -/
def decodeCmdw (v : Block) : Except DecodeError Instr :=
  match decodeCmd v with
  | some c => .ok (c.instr (ignField v))
  | none => .error (.illegalOpcode v)

/-- Decoding a BUS word: W = bit 19, REG = bits 18:16, DATA = bits 15:0 (R67). Every word is valid. -/
def decodeBus (t : BusWord) : Instr :=
  let reg := Reg.ofIndex (t.extractLsb' 16 3)
  let data : Block := t.extractLsb' 0 16
  if t.getLsbD 19 then .wr reg data else .rd reg data

/-- The decoder of both formats. -/
def decode : HostWord → Except DecodeError Instr
  | .cmdw v => decodeCmdw v
  | .bus t => .ok (decodeBus t)

/-- A BUS word from its three fields (R67). -/
def busWord (w : Bool) (reg : Reg) (data : Block) : BusWord :=
  BitVec.ofBool w ++ (reg.index ++ data)

/-- The encoder: the word of an instruction (R61, R67). -/
def encode : Instr → HostWord
  | .enc ign => .cmdw (cmdWord .enc ign)
  | .dec ign => .cmdw (cmdWord .dec ign)
  | .keyexp ign => .cmdw (cmdWord .keyexp ign)
  | .gfmul ign => .cmdw (cmdWord .gfmul ign)
  | .sbox ign => .cmdw (cmdWord .sbox ign)
  | .sboxinv ign => .cmdw (cmdWord .sboxinv ign)
  | .rd reg data => .bus (busWord false reg data)
  | .wr reg data => .bus (busWord true reg data)

/-- The run-time word of `wrh REG`: `(1 << 19) | (REG << 16) | h` (R68). -/
def wrhWord (reg : Reg) (h : Block) : BusWord := busWord true reg h

/-- The word that `poll` issues, `rd STATUS` (R69, R70). -/
def pollWord : BusWord := busWord false .status 0

/-- One row of spec/opcode_table.json: its mnemonic's format, and the mask and match of its fixed bits. -/
structure TableRow where
  busFormat : Bool
  mask : Nat
  pattern : Nat
deriving DecidableEq, Repr

/-- The row of an instruction in spec/opcode_table.json. -/
def tableRow : Instr → TableRow
  | .enc _ => ⟨false, 0x000F, 0x0001⟩
  | .dec _ => ⟨false, 0x000F, 0x0002⟩
  | .keyexp _ => ⟨false, 0x000F, 0x0003⟩
  | .gfmul _ => ⟨false, 0x000F, 0x0004⟩
  | .sbox _ => ⟨false, 0x000F, 0x0005⟩
  | .sboxinv _ => ⟨false, 0x000F, 0x0006⟩
  | .rd _ _ => ⟨true, 0x80000, 0x00000⟩
  | .wr _ _ => ⟨true, 0x80000, 0x80000⟩

/-- Whether a word has a row's format and fixed bits. -/
def TableRow.fits (row : TableRow) : HostWord → Bool
  | .cmdw v => !row.busFormat && v.toNat &&& row.mask == row.pattern
  | .bus t => row.busFormat && t.toNat &&& row.mask == row.pattern

/-- A number of `nbits` bits as a word of the format that has that width: 16 bits are CMDW; 20 bits, which are 24 in
whole bytes, are BUS. Bits above the format's width make it no word (notes/assumptions/15). -/
def hostWordOfTable (nbits w : Nat) : Option HostWord :=
  if nbits = 16 ∧ w < 2 ^ 16 then some (.cmdw (BitVec.ofNat 16 w))
  else if (nbits = 20 ∨ nbits = 24) ∧ w < 2 ^ 20 then some (.bus (BitVec.ofNat 20 w))
  else none

/-- The instruction the decoder reads from a word numbered as spec/opcode_table.json numbers it. -/
def decodeTableWord (nbits w : Nat) : Option Instr :=
  match hostWordOfTable nbits w with
  | some word =>
    match decode word with
    | .ok i => some i
    | .error _ => none
  | none => none

end Sys2Proof
end

