-- ==== Sys2Proof/Machine/State.lean ====
section
/-! DEFINITION. The state of the machine as plain data, the reasons a step can stop, and the state after reset. The S-box
tables, the round constants and the mixing matrices are constants, not state (10_state.md R31). -/

namespace Sys2Proof.Machine

/-- Whether a command is in flight (10_state.md R30). -/
inductive Phase where
  | idle | busy
deriving DecidableEq, Repr

/-- The two error conditions of the command interface (60_exceptions.md R182). -/
inductive ErrorCondition where
  | illegalOpcode | commandWhileBusy
deriving DecidableEq, Repr

/-- Why the machine stops with a fault. -/
inductive Fault where
  /-- The completion step found PHASE = BUSY with an illegal opcode in LOP. Raised by `complete` alone, in states that
  no run reaches: acceptance latches only legal opcodes (40_engine_control.md R82). Safe (notes/assumptions/11). -/
  | illegalLatchedOpcode
deriving DecidableEq, Repr

/-- Why a step has no meaning. -/
inductive Refusal where
  /-- An instruction without a meaning. Raised by no arm of this model. Safe. -/
  | notModelled (mnemonic : String)
  /-- `wrh` before any `rd`: h is undefined and the script ill-formed (30_encoding.md R68; 93_implementation_defined.md
  I11 says refuse). Raised by the host port alone. Safe (notes/assumptions/9). -/
  | scratchUndefined
deriving DecidableEq, Repr

/-- The whole machine: the engine's registers, its hidden state, the host's side of the port, and what the model keeps
for the schedule. CMD, STATUS and STATUS.BUSY have no storage of their own: they are views (R23, R24). -/
structure State where
  /-- DIN (10_state.md R21). -/
  din : Block
  /-- KEY (R22). -/
  key : Block
  /-- DOUT (R26). -/
  dout : Block
  /-- RK0, RK1, RK2 (R27). -/
  rk0 : Block
  rk1 : Block
  rk2 : Block
  /-- STATUS.DONE, STATUS.ILL, STATUS.OVR (R24). -/
  done : Bool
  ill : Bool
  ovr : Bool
  /-- PHASE; STATUS.BUSY is PHASE = BUSY (R24, R30). -/
  phase : Phase
  /-- LOP, the opcode of the last accepted command; CMD reads it (R23, R30). -/
  lop : Nibble
  /-- LDIN and LKEY, the operands latched at acceptance (R30). -/
  ldin : Block
  lkey : Block
  /-- The host's scratch variable h and whether a read has given it a value (30_encoding.md R68). -/
  h : Block
  hDefined : Bool
  /-- The model's own: what is still to come at the host port, in order (notes/assumptions/6). -/
  script : List HostAction
  /-- The model's own: the reset event has been raised and not yet taken (notes/assumptions/8). -/
  resetLine : Bool
  /-- The model's own: how many host steps come before the completion in flight (notes/assumptions/2). -/
  wait : Nat
  /-- The model's own: how many free values have been drawn (notes/assumptions/5). -/
  draws : Nat
deriving DecidableEq, Repr

/-- Right after reset (70_reset_and_hazards.md R200; 10_state.md R20, R24, R30). `h` is undefined then (30_encoding.md
R68): its value here is a DESIGN CHOICE (notes/assumptions/9), as are the model's own fields. -/
def State.reset : State where
  din := 0x0000
  key := 0x0000
  dout := 0x0000
  rk0 := 0x0000
  rk1 := 0x0000
  rk2 := 0x0000
  done := false
  ill := false
  ovr := false
  phase := .idle
  lop := 0x0
  ldin := 0x0000
  lkey := 0x0000
  h := 0x0000
  hDefined := false
  script := []
  resetLine := false
  wait := 0
  draws := 0

end Sys2Proof.Machine
end

