-- ==== Sys2Proof/Machine/Flags.lean ====
section
/-! DEFINITION. The STATUS register (10_state.md R24, R25). No command writes a flag as a side effect of its arithmetic
(R34). -/

namespace Sys2Proof.Machine

/-- STATUS.BUSY: PHASE = BUSY (R24). -/
def State.busy (s : State) : Bool := s.phase == .busy

/-- STATUS as read: `0x000 ‖ OVR ‖ ILL ‖ DONE ‖ BUSY` (R24, 20_memory.md R45). -/
def statusWord (s : State) : Block :=
  0x000#12 ++ (BitVec.ofBool s.ovr ++ (BitVec.ofBool s.ill ++ (BitVec.ofBool s.done ++ BitVec.ofBool s.busy)))

/-- A host write to STATUS: bits 2 and 3 clear ILL and OVR when 1; every other bit is ignored (R25). -/
def statusWrite (v : Block) (s : State) : State :=
  { s with ill := s.ill && !v.getLsbD 2, ovr := s.ovr && !v.getLsbD 3 }

end Sys2Proof.Machine
end

