-- ==== Sys2Proof/Machine/Operands.lean ====
section
/-! DEFINITION. The fields of a value (00_scope.md R10, R11), the operands of the commands (30_encoding.md R65) and the
nibble matrix of a block (42_state_substitution.md R110 to R112). -/

namespace Sys2Proof.Machine

/-- `nib3(v)` to `nib0(v)` (00_scope.md R11). -/
def nib3 (v : Block) : Nibble := v.extractLsb' 12 4
def nib2 (v : Block) : Nibble := v.extractLsb' 8 4
def nib1 (v : Block) : Nibble := v.extractLsb' 4 4
def nib0 (v : Block) : Nibble := v.extractLsb' 0 4

/-- `hi(w)` and `lo(w)` of an 8-bit word (R11). -/
def hiNibble (w : KeyWord) : Nibble := w.extractLsb' 4 4
def loNibble (w : KeyWord) : Nibble := w.extractLsb' 0 4

/-- `w0 = K[15:8]` and `w1 = K[7:0]` (44_key_schedule.md R147). -/
def highByte (v : Block) : KeyWord := v.extractLsb' 8 8
def lowByte (v : Block) : KeyWord := v.extractLsb' 0 8

/-- `zext_16` of a nibble (00_scope.md R9). -/
def zext16 (n : Nibble) : Block := n.setWidth 16

/-- The GFMUL operands: x = LDIN[7:4], y = LDIN[3:0]; LDIN[15:8] is ignored (30_encoding.md R65). -/
def gfmulX (ldin : Block) : Nibble := nib1 ldin
def gfmulY (ldin : Block) : Nibble := nib0 ldin

/-- A 2×2 matrix of nibbles, `s[row][col]` (00_scope.md R11). -/
@[ext] structure NibbleMatrix where
  s00 : Nibble
  s01 : Nibble
  s10 : Nibble
  s11 : Nibble
deriving DecidableEq, Repr

/-- `block_to_state`, row-major (42_state_substitution.md R110; 90_conflicts.md C1). -/
def blockToState (b : Block) : NibbleMatrix where
  s00 := nib3 b
  s01 := nib2 b
  s10 := nib1 b
  s11 := nib0 b

/-- `state_to_block` (R111). -/
def stateToBlock (s : NibbleMatrix) : Block := s.s00 ++ s.s01 ++ s.s10 ++ s.s11

end Sys2Proof.Machine
end

