-- ==== Sys2Proof/Machine/Ops.lean ====
section
/-! DEFINITION. The operations the meanings share: raising an error condition, command acceptance and commit, access to
the register window, and the reset event. -/

namespace Sys2Proof.Machine

/-! ### Error conditions (60_exceptions.md) -/

/-- The cause code of a condition (R182). It is stored in no register. -/
def errorCode : ErrorCondition → Nat
  | .illegalOpcode => 1
  | .commandWhileBusy => 2

/-- `raise`: the one way an error condition is taken. It sets the condition's sticky STATUS bit and changes nothing else:
no control transfer and nothing saved (R183, R186). There is no return: the host clears the bit by `statusWrite`
(R187, 10_state.md R25). -/
def raise : ErrorCondition → State → State
  | .illegalOpcode, s => { s with ill := true }
  | .commandWhileBusy, s => { s with ovr := true }

/-! ### The command lifecycle (40_engine_control.md) -/

/-- Acceptance of the command word `v` (R81). The placement of the completion is drawn here (R86): FREE VALUE,
notes/assumptions/2. -/
def accept (v : Block) (s : State) : State :=
  { s with
    lop := opField v
    ldin := s.din
    lkey := s.key
    phase := .busy
    done := false
    wait := Config.latency s.draws
    draws := s.draws + 1 }

/-- `CommandWrite(v)` (R81): the busy check comes before the opcode check (60_exceptions.md R184). -/
def commandWrite (v : Block) (s : State) : State :=
  match s.phase with
  | .busy => raise .commandWhileBusy s
  | .idle =>
    match decodeCmd v with
    | none => raise .illegalOpcode s
    | some _ => accept v s

/-- What every completion does to the lifecycle: PHASE ← IDLE, DONE ← 1 (R82). Nothing is left to wait for. -/
def finish (s : State) : State :=
  { s with phase := .idle, done := true, wait := 0 }

/-- The completion of a command whose result goes to DOUT (R82, 30_encoding.md R66). -/
def commitDout (result : Block) (s : State) : State :=
  finish { s with dout := result }

/-- The completion of KEYEXP, whose results go to RK0, RK1, RK2 in one step (R82, R84, 30_encoding.md R66). -/
def commitRoundKeys (keys : Block × Block × Block) (s : State) : State :=
  finish { s with rk0 := keys.1, rk1 := keys.2.1, rk2 := keys.2.2 }

/-! ### The register window (20_memory.md) -/

/-- Whether a read of the register is an `any16` draw: a result register while PHASE = BUSY (R45,
40_engine_control.md R87). -/
def readIsFree (r : Reg) (s : State) : Bool :=
  match r with
  | .dout | .rk0 | .rk1 | .rk2 => s.busy
  | .din | .key | .cmd | .status => false

/-- What the register holds, whatever PHASE is. CMD reads zext_16(LOP) (10_state.md R23). -/
def storedValue (r : Reg) (s : State) : Block :=
  match r with
  | .din => s.din
  | .key => s.key
  | .cmd => zext16 s.lop
  | .status => statusWord s
  | .dout => s.dout
  | .rk0 => s.rk0
  | .rk1 => s.rk1
  | .rk2 => s.rk2

/-- `MemRead(a, 2)` (R45): the value the read returns. The draw is FREE, notes/assumptions/4. -/
def memRead (r : Reg) (s : State) : Block :=
  if readIsFree r s then Config.any16 s.draws else storedValue r s

/-- A read transaction as a whole: the value goes into the host's h (30_encoding.md R68) and no register of the engine
changes (20_memory.md R45, R48). A draw is used up (R87: a fresh one per read). -/
def readIntoScratch (r : Reg) (s : State) : State :=
  { s with
    h := memRead r s
    hDefined := true
    draws := if readIsFree r s then s.draws + 1 else s.draws }

/-- `MemWrite(a, 2, v)` (R46): DIN and KEY whatever PHASE is, CMD by `CommandWrite`, STATUS by write-1-to-clear; the
result registers ignore it and raise nothing. -/
def memWrite (r : Reg) (v : Block) (s : State) : State :=
  match r with
  | .din => { s with din := v }
  | .key => { s with key := v }
  | .cmd => commandWrite v s
  | .status => statusWrite v s
  | .dout | .rk0 | .rk1 | .rk2 => s

/-- Where register `r` is in the host's address space, counted in registers from BASE (R41). -/
def windowAddress (r : Reg) : Nat := Config.base + r.index.toNat

/-- The register at an address of the host's address space, if the address is in the window (R41: offsets 0 to 7, all
mapped). -/
def windowReg (a : Nat) : Option Reg :=
  if Config.base ≤ a ∧ a < Config.base + 8 then some (Reg.ofIndex (BitVec.ofNat 3 (a - Config.base))) else none

/-! ### Reset (70_reset_and_hazards.md) -/

/-- The reset event (R200). A command in flight is abandoned. What is the host's (h and the rest of its script) and the
draw counter are not the engine's and stay (notes/assumptions/5, 8). -/
def applyReset (s : State) : State :=
  { State.reset with h := s.h, hDefined := s.hDefined, script := s.script, draws := s.draws }

end Sys2Proof.Machine
end

