-- ==== Sys2Proof/Machine/Bus.lean ====
section
/-! DEFINITION. The two host transactions (20_memory.md R45, R46; 30_encoding.md R67, R68). -/

namespace Sys2Proof.Machine

/-- `rd REG` (R45, R68). DATA is ignored (R67). -/
def execRd (reg : Reg) (_data : Block) (s : State) : Host.Outcome State Fault Refusal :=
  .next (readIntoScratch reg s)

/-- `wr REG, DATA` (R46). -/
def execWr (reg : Reg) (data : Block) (s : State) : Host.Outcome State Fault Refusal :=
  .next (memWrite reg data s)

end Sys2Proof.Machine
end

