-- ==== Sys2Proof/Machine/Substitution.lean ====
section
/-! DEFINITION. The S-box tables, nibble substitution, and the SBOX and SBOXINV commands (42_state_substitution.md). -/

namespace Sys2Proof.Machine

/-- The default of the parameter SBOX_FWD, by rows (R113). The spec marks the values as general knowledge, not in its
source: notes/assumptions/1. -/
def sboxFwdRows : List (List Nibble) :=
  [[0x9, 0x4, 0xA, 0xB],
   [0xD, 0x1, 0x8, 0x5],
   [0x6, 0x2, 0x0, 0x3],
   [0xC, 0xE, 0xF, 0x7]]

/-- SBOX_FWD of this machine (R113; 92_eei_decisions.md D20). -/
def sboxFwd : SboxTable := fun row col => (sboxFwdRows.getD row.toNat []).getD col.toNat 0

/-- The lookup `box[(n >> 2) & 0b11][n & 0b11]` (R115). -/
def lookup (box : SboxTable) (n : Nibble) : Nibble := box (n.extractLsb' 2 2) (n.extractLsb' 0 2)

/-- The nibble that a table maps to `n`, if any. -/
def preimage (box : SboxTable) (n : Nibble) : Option Nibble :=
  ((List.range 16).map (BitVec.ofNat 4)).find? fun m => lookup box m == n

/-- The inverse of a table: entry `n` is the `m` with `box(m) = n` (R114). A permutation has one for every `n`. -/
def inverseTable (box : SboxTable) : SboxTable := fun row col => (preimage box (row ++ col)).getD 0

/-- SBOX_INV of this machine: not a free parameter (R114). -/
def sboxInv : SboxTable := inverseTable sboxFwd

/-- `sub_nibbles(s, box)` (R116). -/
def subNibbles (box : SboxTable) (s : NibbleMatrix) : NibbleMatrix where
  s00 := lookup box s.s00
  s01 := lookup box s.s01
  s10 := lookup box s.s10
  s11 := lookup box s.s11

/-- `sub_block(b, box)` (R117). -/
def subBlock (box : SboxTable) (b : Block) : Block := stateToBlock (subNibbles box (blockToState b))

/-- `sub_word(w, box)` (R118). -/
def subWord (box : SboxTable) (w : KeyWord) : KeyWord := lookup box (hiNibble w) ++ lookup box (loNibble w)

/-- SBOX, the write of CMD (R120, 40_engine_control.md R81). -/
def execSbox (ign : BitVec 12) (s : State) : Host.Outcome State Fault Refusal :=
  .next (commandWrite (cmdWord .sbox ign) s)

/-- SBOX at completion: DOUT ← sub_block(LDIN, SBOX_FWD) (R120). -/
def completeSbox (s : State) : State := commitDout (subBlock sboxFwd s.ldin) s

/-- SBOXINV, the write of CMD (R121, 40_engine_control.md R81). -/
def execSboxinv (ign : BitVec 12) (s : State) : Host.Outcome State Fault Refusal :=
  .next (commandWrite (cmdWord .sboxinv ign) s)

/-- SBOXINV at completion: DOUT ← sub_block(LDIN, SBOX_INV) (R121). -/
def completeSboxinv (s : State) : State := commitDout (subBlock sboxInv s.ldin) s

end Sys2Proof.Machine
end

