-- ==== Sys2Proof/Machine/KeySchedule.lean ====
section
/-! DEFINITION. The key schedule and the KEYEXP command (44_key_schedule.md). -/

namespace Sys2Proof.Machine

/-- `rotate_word(w)`: the nibbles swapped (R145). -/
def rotateWord (w : KeyWord) : KeyWord := loNibble w ++ hiNibble w

/-- `RCON = [0x80, 0x30]` (R146). -/
def rcon0 : KeyWord := 0x80
def rcon1 : KeyWord := 0x30

/-- `key_expansion(K)` with the table `box` as SBOX_FWD: the words of R148, the round keys of R149. -/
def keyExpansion (box : SboxTable) (k : Block) : Block × Block × Block :=
  let w0 := highByte k
  let w1 := lowByte k
  let w2 := subWord box (rotateWord w1) ^^^ rcon0 ^^^ w0
  let w3 := w2 ^^^ w1
  let w4 := subWord box (rotateWord w3) ^^^ rcon1 ^^^ w2
  let w5 := w4 ^^^ w3
  (w0 ++ w1, w2 ++ w3, w4 ++ w5)

/-- KEYEXP, the write of CMD (R151, 40_engine_control.md R81). -/
def execKeyexp (ign : BitVec 12) (s : State) : Host.Outcome State Fault Refusal :=
  .next (commandWrite (cmdWord .keyexp ign) s)

/-- KEYEXP at completion: RK0, RK1, RK2 ← key_expansion(LKEY); DOUT is unchanged (R151). -/
def completeKeyexp (s : State) : State := commitRoundKeys (keyExpansion sboxFwd s.lkey) s

end Sys2Proof.Machine
end

