-- ==== Sys2Proof/Machine/Galois.lean ====
section
/-! DEFINITION. The GF(2^4) multiplier and the GFMUL command (41_galois.md). -/

namespace Sys2Proof.Machine

/-- FIELD_POLY, x^4 + x + 1 (00_scope.md R6, 43_linear_layers.md R137). -/
def fieldPoly : BitVec 5 := 0x13

/-- One turn of the shift-and-add loop for bit `i` of `y`: `acc` and the 5-bit `a` (R101). -/
def gfmulTurn (y : Nibble) (st : Nibble × BitVec 5) (i : Nat) : Nibble × BitVec 5 :=
  let a4 : Nibble := st.2.extractLsb' 0 4
  let acc := if y.getLsbD i then st.1 ^^^ a4 else st.1
  let shifted : BitVec 5 := a4.setWidth 5 <<< 1
  (acc, if st.2.getLsbD 3 then shifted ^^^ fieldPoly else shifted)

/-- `gfmul(x, y)`, the product in GF(2)[z]/(z^4+z+1) (R100) by the source's algorithm (R101). -/
def gfmul (x y : Nibble) : Nibble :=
  ([0, 1, 2, 3].foldl (gfmulTurn y) (0, x.setWidth 5)).1

/-- GFMUL, the write of CMD (R105, 40_engine_control.md R81). -/
def execGfmul (ign : BitVec 12) (s : State) : Host.Outcome State Fault Refusal :=
  .next (commandWrite (cmdWord .gfmul ign) s)

/-- GFMUL at completion: DOUT ← zext_16(gfmul(LDIN[7:4], LDIN[3:0])) (R105, 40_engine_control.md R82). -/
def completeGfmul (s : State) : State :=
  commitDout (zext16 (gfmul (gfmulX s.ldin) (gfmulY s.ldin))) s

end Sys2Proof.Machine
end

