-- ==== Sys2Proof/Machine/Linear.lean ====
section
/-! DEFINITION. ShiftRows, MixColumns, their inverses, and AddRoundKey (43_linear_layers.md), over the nibble matrix and
in the block form the spec gives beside it. -/

namespace Sys2Proof.Machine

/-- `shift_rows(s)`: row 1 rotated left by 1 (R130). -/
def shiftRows (s : NibbleMatrix) : NibbleMatrix where
  s00 := s.s00
  s01 := s.s01
  s10 := s.s11
  s11 := s.s10

/-- `shift_rows_inverse(s)`: row 1 rotated right by 1, for two entries the same swap (R131). -/
def shiftRowsInverse (s : NibbleMatrix) : NibbleMatrix where
  s00 := s.s00
  s01 := s.s01
  s10 := s.s11
  s11 := s.s10

/-- MIX = [[1,4],[4,1]] (R133, R137). -/
def mixMatrix : NibbleMatrix := ⟨1, 4, 4, 1⟩

/-- MIXINV = [[9,2],[2,9]] (R134, R137). -/
def mixInvMatrix : NibbleMatrix := ⟨9, 2, 2, 9⟩

/-- The product of a matrix with each column of the state, over GF(2^4) (R133, R134). -/
def mulColumns (m s : NibbleMatrix) : NibbleMatrix where
  s00 := gfmul m.s00 s.s00 ^^^ gfmul m.s01 s.s10
  s01 := gfmul m.s00 s.s01 ^^^ gfmul m.s01 s.s11
  s10 := gfmul m.s10 s.s00 ^^^ gfmul m.s11 s.s10
  s11 := gfmul m.s10 s.s01 ^^^ gfmul m.s11 s.s11

/-- `mix_columns(s)` (R133). -/
def mixColumns (s : NibbleMatrix) : NibbleMatrix := mulColumns mixMatrix s

/-- `mix_columns_inverse(s)` (R134). -/
def mixColumnsInverse (s : NibbleMatrix) : NibbleMatrix := mulColumns mixInvMatrix s

/-- `AddRoundKey(s, k)`: the whole-block exclusive-or (R138; 90_conflicts.md C2). -/
def addRoundKey (s : NibbleMatrix) (k : Block) : NibbleMatrix := blockToState (stateToBlock s ^^^ k)

/-- `SR(b)`, the block form of ShiftRows (R132). -/
def blockSR (b : Block) : Block := highByte b ++ nib0 b ++ nib1 b

/-- `MC(b)`, the block form of MixColumns (R136). -/
def blockMC (b : Block) : Block :=
  (nib3 b ^^^ gfmul 4 (nib1 b)) ++ (nib2 b ^^^ gfmul 4 (nib0 b)) ++
    (gfmul 4 (nib3 b) ^^^ nib1 b) ++ (gfmul 4 (nib2 b) ^^^ nib0 b)

/-- `MCI(b)`, the block form of the inverse (R136). -/
def blockMCI (b : Block) : Block :=
  (gfmul 9 (nib3 b) ^^^ gfmul 2 (nib1 b)) ++ (gfmul 9 (nib2 b) ^^^ gfmul 2 (nib0 b)) ++
    (gfmul 2 (nib3 b) ^^^ gfmul 9 (nib1 b)) ++ (gfmul 2 (nib2 b) ^^^ gfmul 9 (nib0 b))

end Sys2Proof.Machine
end

