-- ==== Sys2Proof/Machine/Rounds.lean ====
section
/-! DEFINITION. The round sequence and the ENC and DEC commands (45_round_sequence.md). -/

namespace Sys2Proof.Machine

/-- `encrypt(P, K)` with the table `box` as SBOX_FWD (R160). Round 2 has no MixColumns. -/
def encrypt (box : SboxTable) (p k : Block) : Block :=
  let keys := keyExpansion box k
  let s := addRoundKey (blockToState p) keys.1
  let s := addRoundKey (mixColumns (shiftRows (subNibbles box s))) keys.2.1
  let s := addRoundKey (shiftRows (subNibbles box s)) keys.2.2
  stateToBlock s

/-- `decrypt(C, K)` (R161): MixColumnsInverse comes after AddRoundKey(key1). -/
def decrypt (box : SboxTable) (c k : Block) : Block :=
  let keys := keyExpansion box k
  let inv := inverseTable box
  let s := addRoundKey (blockToState c) keys.2.2
  let s := addRoundKey (subNibbles inv (shiftRowsInverse s)) keys.2.1
  let s := subNibbles inv (shiftRowsInverse (mixColumnsInverse s))
  let s := addRoundKey s keys.1
  stateToBlock s

/-- ENC, the write of CMD (R163, 40_engine_control.md R81). -/
def execEnc (ign : BitVec 12) (s : State) : Host.Outcome State Fault Refusal :=
  .next (commandWrite (cmdWord .enc ign) s)

/-- ENC at completion: DOUT ← encrypt(LDIN, LKEY); it reads and writes no round-key register (R163, R165). -/
def completeEnc (s : State) : State := commitDout (encrypt sboxFwd s.ldin s.lkey) s

/-- DEC, the write of CMD (R164, 40_engine_control.md R81). -/
def execDec (ign : BitVec 12) (s : State) : Host.Outcome State Fault Refusal :=
  .next (commandWrite (cmdWord .dec ign) s)

/-- DEC at completion: DOUT ← decrypt(LDIN, LKEY) (R164, R165). -/
def completeDec (s : State) : State := commitDout (decrypt sboxFwd s.ldin s.lkey) s

end Sys2Proof.Machine
end

