-- ==== Sys2Proof/Machine/Dispatch.lean ====
section
/-! DEFINITION. The meaning of every instruction, one arm each. -/

namespace Sys2Proof.Machine

def exec (i : Instr) (s : State) : Host.Outcome State Fault Refusal :=
  match i with
  | .enc ign => Sys2Proof.Machine.execEnc ign s
  | .dec ign => Sys2Proof.Machine.execDec ign s
  | .keyexp ign => Sys2Proof.Machine.execKeyexp ign s
  | .gfmul ign => Sys2Proof.Machine.execGfmul ign s
  | .sbox ign => Sys2Proof.Machine.execSbox ign s
  | .sboxinv ign => Sys2Proof.Machine.execSboxinv ign s
  | .rd reg data => Sys2Proof.Machine.execRd reg data s
  | .wr reg data => Sys2Proof.Machine.execWr reg data s

end Sys2Proof.Machine
end

