-- ==== Sys2Proof/Machine/Engine.lean ====
section
/-! DEFINITION. The engine's completion step (40_engine_control.md R82). -/

namespace Sys2Proof.Machine

/-- What the completion step of each command commits (R82, R83). -/
def completeCommand : Command → State → State
  | .enc, s => completeEnc s
  | .dec, s => completeDec s
  | .keyexp, s => completeKeyexp s
  | .gfmul, s => completeGfmul s
  | .sbox, s => completeSbox s
  | .sboxinv, s => completeSboxinv s

/-- `Complete()` (R82): the command is the one latched in LOP. The rule's case is exhaustive because LOP is legal while
busy; in a state where it is not, which no run reaches, this is a fault (notes/assumptions/11). -/
def complete (s : State) : Host.Outcome State Fault Refusal :=
  match decodeCmd (zext16 s.lop) with
  | some c => .next (completeCommand c s)
  | none => .fault .illegalLatchedOpcode

/-- Whether the next step is the engine's: a command is in flight (R82) and the schedule puts no further host step
before its completion (R86), or the host has nothing pending. -/
def engineTurn (s : State) : Bool :=
  s.busy && (s.wait == 0 || s.script.isEmpty)

end Sys2Proof.Machine
end

