-- ==== Sys2Proof/Machine/HostPort.lean ====
section
/-! DEFINITION. The host's side of the port: one pending action, one step (40_engine_control.md R80). -/

namespace Sys2Proof.Machine

/-- A word on the port: the decoded instruction runs. A command word with a reserved opcode is no instruction but still a
write of CMD, with the effect of `CommandWrite` (30_encoding.md R63, 40_engine_control.md R81). -/
def runWord (w : HostWord) (s : State) : Host.Outcome State Fault Refusal :=
  match decode w with
  | .ok i => exec i s
  | .error (.illegalOpcode v) => .next (commandWrite v s)

/-- The end of one turn of `poll`: the STATUS read stands in h; while its bit 0 is 1 the read is repeated
(30_encoding.md R69). -/
def pollAgain (s : State) : State :=
  if s.h.getLsbD 0 then { s with script := .poll :: s.script } else s

/-- One host action (R67 to R69), or the reset event raised (70_reset_and_hazards.md R200). -/
def hostAct (a : HostAction) (s : State) : Host.Outcome State Fault Refusal :=
  match a with
  | .word w => runWord w s
  | .wrh reg => if s.hDefined then runWord (.bus (wrhWord reg s.h)) s else .refused .scratchUndefined
  | .poll =>
    match runWord (.bus pollWord) s with
    | .next t => .next (pollAgain t)
    | .fault r => .fault r
    | .refused r => .refused r
  | .reset => .next { s with resetLine := true }

/-- The host takes its next action: it leaves the script, and while a command is in flight one host step less is left
before its completion (40_engine_control.md R86). -/
def hostTakes (rest : List HostAction) (s : State) : State :=
  { s with
    script := rest
    wait := match s.phase with
      | .busy => s.wait - 1
      | .idle => s.wait }

/-- The word the next host action puts on the port, if it puts one there. -/
def pendingWord (s : State) : Option HostWord :=
  match s.script with
  | [] => none
  | .word w :: _ => some w
  | .wrh reg :: _ => some (.bus (wrhWord reg s.h))
  | .poll :: _ => some (.bus pollWord)
  | .reset :: _ => none

/-- A word put at the head of the script, the schedule and the reset line set so that it is taken next. -/
def withPendingWord (w : HostWord) (s : State) : State :=
  { s with
    script := .word w :: s.script
    resetLine := false
    wait := match s.phase with
      | .busy => s.wait + 1
      | .idle => s.wait }

end Sys2Proof.Machine
end

