-- ==== Sys2Proof/Machine/Schedule.lean ====
section
/-! DEFINITION. Which agent takes the next step (40_engine_control.md R80). -/

namespace Sys2Proof.Machine

/-- One step: the reset before everything (60_exceptions.md R184), then the engine where the schedule says so (R82, R86),
then the host; with nothing pending and nothing in flight the block waits (60_exceptions.md R194). -/
def takeStep (s : State) : Host.Outcome State Fault Refusal :=
  if s.resetLine then .next (applyReset s)
  else if engineTurn s then complete s
  else
    match s.script with
    | [] => .next s
    | a :: rest => hostAct a (hostTakes rest s)

/-- The state with the word of a table row, if the number is one, at the head of the host's script. -/
def withTableWord (nbits w : Nat) (s : State) : State :=
  match hostWordOfTable nbits w with
  | some word => withPendingWord word s
  | none => s

end Sys2Proof.Machine
end

