-- ==== Sys2Proof/Machine/Step.lean ====
section
/-! DEFINITION. The machine's one step, and where a word is put so that the next step runs it. -/

namespace Sys2Proof.Machine

/-- One atomic transition of one agent (40_engine_control.md R80). -/
def step (s : State) : Host.Outcome State Fault Refusal := takeStep s

/-- The state in which the next step issues the word `w`, numbered as spec/opcode_table.json numbers it
(notes/assumptions/6). A number that is no word leaves the state as it is. -/
def State.withFetchWord (s : State) (nbits w : Nat) : State := withTableWord nbits w s

end Sys2Proof.Machine
end

