-- ==== Sys2Proof/Machine/Assembler.lean ====
section
/-! DEFINITION. Host scripts as text (30_encoding.md R68) and the expansion of their lines into host actions (R67, R69).
What the spec leaves open of the notation is fixed in notes/assumptions/18. -/

namespace Sys2Proof.Machine

/-- A register's name (R68). -/
def regName : Reg → String
  | .din => "DIN" | .key => "KEY" | .cmd => "CMD" | .status => "STATUS"
  | .dout => "DOUT" | .rk0 => "RK0" | .rk1 => "RK1" | .rk2 => "RK2"

/-- A command's mnemonic (R68). -/
def commandName : Command → String
  | .enc => "ENC" | .dec => "DEC" | .keyexp => "KEYEXP"
  | .gfmul => "GFMUL" | .sbox => "SBOX" | .sboxinv => "SBOXINV"

/-- All registers, and all commands. -/
def allRegs : List Reg := [.din, .key, .cmd, .status, .dout, .rk0, .rk1, .rk2]
def allCommands : List Command := [.enc, .dec, .keyexp, .gfmul, .sbox, .sboxinv]

/-- The sixteen digits of `0x…` numbers in the order of their values, in each case (00_scope.md R10; both cases:
notes/assumptions/18). -/
def digitRows : List (List Char) := ["0123456789ABCDEF".toList, "0123456789abcdef".toList]

/-- The nibble a digit stands for: its place in a row of digits. -/
def digitNibble (c : Char) : Option Nibble :=
  (digitRows.findSome? (·.idxOf? c)).map (BitVec.ofNat 4)

/-- The 16-bit number that digits spell: each one enters at bits 3:0 and moves those before it up a nibble. -/
def digitsBlock (cs : List Char) : Option Block :=
  (cs.mapM digitNibble).map fun ns => ns.foldl (fun v n => v <<< 4 ||| n.setWidth 16) 0

/-- A number `0x0000`..`0xFFFF` (R68), written with one to four digits. -/
def parseNumber : List Char → Option Block
  | '0' :: 'x' :: d :: ds =>
    if ds.length ≤ 3 then digitsBlock (d :: ds) else none
  | _ => none

/-- A register by its name or its index 0..7 (R68). -/
def parseReg (t : List Char) : Option Reg :=
  allRegs.find? fun r => t == (regName r).toList || t == [Char.ofNat ('0'.toNat + r.index.toNat)]

/-- An opcode mnemonic as the command word it stands for: ENC = 0x0001 to SBOXINV = 0x0006 (R68). -/
def parseMnemonic (t : List Char) : Option Block :=
  (allCommands.find? fun c => t == (commandName c).toList).map fun c => cmdWord c 0

/-- `imm16`: a number or, for CMD only, an opcode mnemonic (R68). -/
def parseImm (reg : Reg) (t : List Char) : Option Block :=
  match parseNumber t with
  | some v => some v
  | none => if reg = .cmd then parseMnemonic t else none

/-- The words of a line; a comma is a word of its own. `cur` is the word being read. -/
def tokens (cur : List Char) : List Char → List (List Char)
  | [] => if cur.isEmpty then [] else [cur]
  | c :: cs =>
    let before := if cur.isEmpty then [] else [cur]
    if c = ' ' ∨ c = '\t' then before ++ tokens [] cs
    else if c = ',' then before ++ [','] :: tokens [] cs
    else tokens (cur ++ [c]) cs

/-- A line from its words (R68, R69). -/
def parseWords : List (List Char) → Option HostLine
  | [op, a] =>
    if op = "rd".toList then (parseReg a).map .rd
    else if op = "wrh".toList then (parseReg a).map .wrh
    else if op = "run".toList then (parseImm .cmd a).map .run
    else none
  | [op, a, [','], b] =>
    if op = "wr".toList then
      match parseReg a with
      | some reg => (parseImm reg b).map (.wr reg)
      | none => none
    else if op = "mv".toList then
      match parseReg a, parseReg b with
      | some dst, some src => some (.mv dst src)
      | _, _ => none
    else none
  | [op] => if op = "poll".toList then some .poll else none
  | _ => none

/-- One line of text: `;` starts a comment (R68); an empty line is no line. `none` where it is ill-formed. -/
def parseLine (text : String) : Option (List HostLine) :=
  match tokens [] (text.toList.takeWhile (· != ';')) with
  | [] => some []
  | ws => (parseWords ws).map fun l => [l]

/-- The expansion of a line (R68, R69). -/
def expandLine : HostLine → List HostAction
  | .wr reg imm => [.word (.bus (busWord true reg imm))]
  | .rd reg => [.word (.bus (busWord false reg 0))]
  | .wrh reg => [.wrh reg]
  | .poll => [.poll]
  | .run op => [.word (.bus (busWord true .cmd op)), .poll]
  | .mv dst src => [.word (.bus (busWord false src 0)), .wrh dst]

/-- A script from its lines of text. `none` where a line is ill-formed. -/
def assemble : List String → Option (List HostAction)
  | [] => some []
  | text :: rest =>
    match parseLine text, assemble rest with
    | some ls, some actions => some (ls.flatMap expandLine ++ actions)
    | _, _ => none

end Sys2Proof.Machine
end

