-- ==== Sys2Proof/Safety.lean ====
section
/-! DEFINITION. The terms in which statements speak of safe runs: the invariants of the state, what the host writes next,
and what a command puts into the result registers. -/

namespace Sys2Proof.Machine

/-- The command lifecycle (10_state.md R23, R24; 40_engine_control.md R81, R82): while BUSY, LOP holds a legal opcode and
DONE is 0; while IDLE, no completion is waited for; and CMD reads 0x0000 or a legal opcode. -/
def LifecycleInv (s : State) : Prop :=
  (s.phase = .busy → (decodeOp s.lop).isSome = true ∧ s.done = false) ∧
  (s.phase = .idle → s.wait = 0) ∧
  (s.lop = 0 ∨ (decodeOp s.lop).isSome = true)

/-- The round-key registers hold the reset values or one whole key expansion (10_state.md R27; 40_engine_control.md
R84). -/
def RoundKeysInv (s : State) : Prop :=
  (s.rk0 = 0 ∧ s.rk1 = 0 ∧ s.rk2 = 0) ∨ (s.rk0, s.rk1, s.rk2) = keyExpansion sboxFwd s.rk0

/-- A state from which the machine never stops: the lifecycle invariant, and a script that reads before its first `wrh`
(30_encoding.md R68). -/
def SafeState (s : State) : Prop :=
  LifecycleInv s ∧ scriptWf s.hDefined s.script = true

/-- The register and the value that a word writes, if it is a write (30_encoding.md R61, R67). -/
def writeOf : HostWord → Option (Reg × Block)
  | .cmdw v => some (.cmd, v)
  | .bus t => if t.getLsbD 19 then some (Reg.ofIndex (t.extractLsb' 16 3), t.extractLsb' 0 16) else none

/-- What the next step writes on the host's behalf: nothing where the step is a reset or the engine's. -/
def nextHostWrite (s : State) : Option (Reg × Block) :=
  if s.resetLine || engineTurn s then none
  else
    match pendingWord s with
    | some w => writeOf w
    | none => none

/-- DOUT, RK0, RK1, RK2 after a command's completion, from the operands latched and the values before (30_encoding.md
R62, R66). -/
def commandOutputs (c : Command) (din key : Block) (old : Block × Block × Block × Block) :
    Block × Block × Block × Block :=
  match c with
  | .enc => (encrypt sboxFwd din key, old.2)
  | .dec => (decrypt sboxFwd din key, old.2)
  | .keyexp => (old.1, keyExpansion sboxFwd key)
  | .gfmul => (zext16 (gfmul (nib1 din) (nib0 din)), old.2)
  | .sbox => (subBlock sboxFwd din, old.2)
  | .sboxinv => (subBlock sboxInv din, old.2)

/-- DOUT, RK0, RK1, RK2 of a state. -/
def resultRegs (s : State) : Block × Block × Block × Block := (s.dout, s.rk0, s.rk1, s.rk2)

end Sys2Proof.Machine
end

