-- ==== Sys2Proof/Certificates/Slice0/Obligations.lean ====
section
/-! DEFINITION. The statements for the provers. OBLIGATIONS.json names each one's rules. "R<n>" are the rules of spec/.
`engineTurn`, `wait`, `draws`, `script` and `resetLine` are the model's own (notes/assumptions/2 to 8). -/

open Sys2Proof Sys2Proof.Machine

/-! ### Encoding (30_encoding.md) -/

/-- Decoding what the encoder writes gives the instruction back, for every instruction and every operand (R61, R67). That
the bits a format ignores are operands of the syntax is the model's choice (notes/assumptions/16). -/
def Obligations.DecodeOfEncodeIsTheInstruction : Prop :=
  ∀ i : Instr, decode (encode i) = .ok i

/-- Encoding what the decoder reads gives the word back: no bit of a word is dropped. That this holds of the ignored bits
too, IGN of a command word and DATA of a read, is the model's choice (notes/assumptions/16): the syntax keeps them, where
R61 and R67 only ignore them and R67's canonical read has DATA = 0. -/
def Obligations.EncodeOfDecodeIsTheWord : Prop :=
  ∀ (w : HostWord) (i : Instr), decode w = .ok i → encode i = w

/-- A word that decodes fits the opcode-table row of its instruction and of no other instruction. -/
def Obligations.DecodedWordFitsExactlyItsTableRow : Prop :=
  ∀ (w : HostWord) (i j : Instr), decode w = .ok i →
    ((tableRow j).fits w = true ↔ tableRow j = tableRow i)

/-- R64: decoding a command word is total, one of six commands by bits 3:0 or ILLEGAL. -/
def Obligations.CommandDecodingFollowsTheOpcodeMap : Prop :=
  ∀ v : Block,
    decodeCmd v =
      if v.extractLsb' 0 4 = 0x1#4 then some .enc
      else if v.extractLsb' 0 4 = 0x2#4 then some .dec
      else if v.extractLsb' 0 4 = 0x3#4 then some .keyexp
      else if v.extractLsb' 0 4 = 0x4#4 then some .gfmul
      else if v.extractLsb' 0 4 = 0x5#4 then some .sbox
      else if v.extractLsb' 0 4 = 0x6#4 then some .sboxinv
      else none

/-- R67: a transaction word performs MemWrite(REG, 2, DATA) when W = 1 and MemRead(REG, 2) when W = 0; every 20-bit word
is valid. That the value read goes to h is R68's (notes/assumptions/20); that h is then marked as defined is the model's
record of R68's "starts undefined" (notes/assumptions/9), and the draw counter is its own (notes/assumptions/5). -/
def Obligations.TransactionWordPerformsItsAccess : Prop :=
  ∀ (t : BusWord) (reg : Reg) (s : State), reg.index = t.extractLsb' 16 3 →
    ∃ i, decode (.bus t) = .ok i ∧
      (t.getLsbD 19 = true → exec i s = .next (memWrite reg (t.extractLsb' 0 16) s)) ∧
      (t.getLsbD 19 = false →
        ∃ u, exec i s = .next u ∧ u.h = memRead reg s ∧ u.hDefined = true ∧
          { u with h := s.h, hDefined := s.hDefined, draws := s.draws } = s)

/-- The example words of R70, and one word of each command, decode to the instructions they stand for. -/
def Obligations.ExampleWordsDecode : Prop :=
  decode (.bus 0x9A73B) = .ok (.wr .key 0xA73B) ∧ decode (.bus 0x86F6B) = .ok (.wr .din 0x6F6B) ∧
  decode (.bus 0xA0001) = .ok (.wr .cmd 0x0001) ∧ decode (.bus 0x30000) = .ok (.rd .status 0) ∧
  decode (.bus 0x40000) = .ok (.rd .dout 0) ∧ decode (.bus 0xB000C) = .ok (.wr .status 0x000C) ∧
  decode (.bus 0x70000) = .ok (.rd .rk2 0) ∧
  decode (.cmdw 0x0001) = .ok (.enc 0) ∧ decode (.cmdw 0x0002) = .ok (.dec 0) ∧
  decode (.cmdw 0x0003) = .ok (.keyexp 0) ∧ decode (.cmdw 0x0004) = .ok (.gfmul 0) ∧
  decode (.cmdw 0xFFF5) = .ok (.sbox 0xFFF) ∧ decode (.cmdw 0x0016) = .ok (.sboxinv 1)

/-- R61: a command with IGN ≠ 0 behaves exactly as the same command with IGN = 0. The two draw the same placement of the
completion, from the same counter (notes/assumptions/2). -/
def Obligations.IgnoredCommandBitsHaveNoEffect : Prop :=
  ∀ (c : Command) (ign : BitVec 12) (s : State), exec (c.instr ign) s = exec (c.instr 0) s

/-- A step runs the decoded instruction: when the next host action is the word of `i` and it is the host's turn, the step
is `exec i` on the state with that action taken off the script; and `withFetchWord` makes it the host's turn. -/
def Obligations.StepRunsTheDecodedInstruction : Prop :=
  (∀ (s : State) (w : HostWord) (rest : List HostAction) (i : Instr),
    s.resetLine = false → engineTurn s = false → s.script = .word w :: rest → decode w = .ok i →
      step s = exec i (hostTakes rest s)) ∧
  (∀ (s : State) (nbits n : Nat) (i : Instr), decodeTableWord nbits n = some i →
    step (s.withFetchWord nbits n) = exec i { s with resetLine := false })

/-- A command word is a write of CMD, whichever format carries it and whether its opcode is legal or reserved: the CMDW
word and the BUS write of the same value have one effect (R62, R63, R67, R81). That a CMDW word stands on the port as an
action of its own is the model's (notes/assumptions/7). -/
def Obligations.CommandWordIsAWriteOfCmd : Prop :=
  ∀ (v : Block) (s : State), runWord (.cmdw v) s = runWord (.bus (busWord true .cmd v)) s

/-! ### The register window (10_state.md, 20_memory.md) -/

/-- R45: a host read completes for every register, returns the register, or for a result register while BUSY an
unconstrained value, and changes no state. That the value goes to the host's h is R68's (notes/assumptions/20); that h is
then marked as defined is the model's record of R68's "starts undefined" (notes/assumptions/9), and the draw counter is its
own (notes/assumptions/5). -/
def Obligations.ReadReturnsTheRegister : Prop :=
  ∀ (s : State) (reg : Reg) (data : Block),
    ∃ t, exec (.rd reg data) s = .next t ∧
      t = { s with h := t.h, hDefined := true, draws := t.draws } ∧
      (reg = .din → t.h = s.din) ∧
      (reg = .key → t.h = s.key) ∧
      (reg = .cmd → t.h = s.lop.setWidth 16) ∧
      (reg = .status → t.h = 0x000#12 ++ (BitVec.ofBool s.ovr ++ (BitVec.ofBool s.ill ++
        (BitVec.ofBool s.done ++ BitVec.ofBool (decide (s.phase = .busy)))))) ∧
      (s.phase = .idle →
        (reg = .dout → t.h = s.dout) ∧ (reg = .rk0 → t.h = s.rk0) ∧
        (reg = .rk1 → t.h = s.rk1) ∧ (reg = .rk2 → t.h = s.rk2))

/-- R87 in the model: a read of a result register while BUSY returns a free value, the draw of the counter's number, and
uses it up, so that the next such read draws anew. The counter is the model's choice (notes/assumptions/4, 5); no other
read uses a draw. -/
def Obligations.BusyResultReadIsAFreshDraw : Prop :=
  ∀ (s t : State) (reg : Reg) (data : Block), exec (.rd reg data) s = .next t →
    (s.phase = .busy ∧ (reg = .dout ∨ reg = .rk0 ∨ reg = .rk1 ∨ reg = .rk2) →
      t.h = Config.any16 s.draws ∧ t.draws = s.draws + 1) ∧
    (s.phase = .idle ∨ reg = .din ∨ reg = .key ∨ reg = .cmd ∨ reg = .status → t.draws = s.draws)

/-- R24: the bits of STATUS. -/
def Obligations.StatusReadsBusyDoneIllOvr : Prop :=
  ∀ s : State,
    (memRead .status s).getLsbD 0 = decide (s.phase = .busy) ∧
    (memRead .status s).getLsbD 1 = s.done ∧
    (memRead .status s).getLsbD 2 = s.ill ∧
    (memRead .status s).getLsbD 3 = s.ovr ∧
    ∀ k, 4 ≤ k → (memRead .status s).getLsbD k = false

/-- R23: CMD reads zext_16(LOP), so bits 15:4 read 0; a CMD write that is not accepted does not change what CMD reads,
and an accepted one makes it read the opcode. -/
def Obligations.CmdReadsTheLastAcceptedOpcode : Prop :=
  ∀ (s : State) (v : Block),
    memRead .cmd s = s.lop.setWidth 16 ∧
    (∀ k, 4 ≤ k → (memRead .cmd s).getLsbD k = false) ∧
    ∃ t, exec (.wr .cmd v) s = .next t ∧
      (s.phase = .busy ∨ decodeCmd v = none → memRead .cmd t = memRead .cmd s) ∧
      (s.phase = .idle → decodeCmd v ≠ none → memRead .cmd t = v &&& 0x000F#16)

/-- R46: what a host write does, by register, whatever PHASE is. -/
def Obligations.WriteActsByRegister : Prop :=
  ∀ (s : State) (v : Block),
    exec (.wr .din v) s = .next { s with din := v } ∧
    exec (.wr .key v) s = .next { s with key := v } ∧
    exec (.wr .cmd v) s = .next (commandWrite v s) ∧
    exec (.wr .status v) s = .next (statusWrite v s) ∧
    exec (.wr .dout v) s = .next s ∧ exec (.wr .rk0 v) s = .next s ∧
    exec (.wr .rk1 v) s = .next s ∧ exec (.wr .rk2 v) s = .next s

/-- R25: a STATUS write clears ILL when bit 2 is 1 and OVR when bit 3 is 1, and changes nothing else. -/
def Obligations.StatusWriteClearsByOnes : Prop :=
  ∀ (s : State) (v : Block),
    exec (.wr .status v) s =
      .next { s with ill := if v.getLsbD 2 = true then false else s.ill
                     ovr := if v.getLsbD 3 = true then false else s.ovr }

/-- The window's frame: a write of a register other than CMD leaves what every other register reads as it was (R46). Of a
result register while BUSY this is the model's choice and no rule of the spec (notes/assumptions/4, 5): the reads before
and after take the same draw of `Config.any16`, where R87 leaves each read unconstrained. -/
def Obligations.WriteLeavesOtherRegistersAlone : Prop :=
  ∀ (s t : State) (reg other : Reg) (v : Block), reg ≠ .cmd → other ≠ reg →
    exec (.wr reg v) s = .next t → memRead other t = memRead other s

/-- R48: writes to every register but CMD are idempotent; two CMD writes are not, the second one of a legal opcode sets
OVR. -/
def Obligations.WritesButCmdAreIdempotent : Prop :=
  (∀ (s t : State) (reg : Reg) (v : Block), reg ≠ .cmd →
    exec (.wr reg v) s = .next t → exec (.wr reg v) t = .next t) ∧
  (∀ (s t : State) (v : Block), s.phase = .idle → decodeCmd v ≠ none →
    exec (.wr .cmd v) s = .next t → exec (.wr .cmd v) t = .next { t with ovr := true })

/-- R41: register index i is at window offset i, counted in registers; the eight offsets from BASE are the registers and
no other address is in the window. BASE is open (notes/assumptions/12). -/
def Obligations.WindowHoldsTheEightRegisters : Prop :=
  (∀ reg : Reg, windowAddress reg = Config.base + reg.index.toNat ∧ windowReg (windowAddress reg) = some reg) ∧
  ∀ a reg, windowReg a = some reg → a = windowAddress reg

/-! ### The command lifecycle (40_engine_control.md, 60_exceptions.md) -/

/-- R81: CommandWrite, all three cases, and what each leaves unchanged. The schedule's fields are not spoken of where a
command is accepted (notes/assumptions/2). -/
def Obligations.CommandWriteRefusesOrAccepts : Prop :=
  ∀ (s : State) (v : Block),
    (s.phase = .busy → exec (.wr .cmd v) s = .next { s with ovr := true }) ∧
    (s.phase = .idle → decodeCmd v = none → exec (.wr .cmd v) s = .next { s with ill := true }) ∧
    (s.phase = .idle → decodeCmd v ≠ none →
      ∃ t, exec (.wr .cmd v) s = .next t ∧
        t = { s with lop := v.extractLsb' 0 4, ldin := s.din, lkey := s.key, phase := .busy, done := false,
                     wait := t.wait, draws := t.draws })

/-- R184: while BUSY every command word, legal or reserved, raises only CommandWhileBusy; the six commands too. That the
word itself is an action on the port is the model's (notes/assumptions/7). -/
def Obligations.CommandWhileBusySetsOnlyOvr : Prop :=
  (∀ (s : State) (c : Command) (ign : BitVec 12), s.phase = .busy →
    exec (c.instr ign) s = .next { s with ovr := true }) ∧
  (∀ (s : State) (v : Block), s.phase = .busy → runWord (.cmdw v) s = .next { s with ovr := true })

/-- R63: OP = 0x0 and OP = 0x7 through 0xF are illegal: such a CMD write raises IllegalOpcode while IDLE, and
CommandWhileBusy while BUSY, and changes nothing else. -/
def Obligations.ReservedOpcodeSetsOneErrorBit : Prop :=
  ∀ (s : State) (v : Block), v.extractLsb' 0 4 = 0x0#4 ∨ 0x7#4 ≤ v.extractLsb' 0 4 →
    decode (.cmdw v) = .error (.illegalOpcode v) ∧
    (s.phase = .idle → exec (.wr .cmd v) s = .next { s with ill := true }) ∧
    (s.phase = .busy → exec (.wr .cmd v) s = .next { s with ovr := true })

/-- ENC (R163): accepted while IDLE, and its completion writes encrypt(DIN, KEY) to DOUT. Nothing else changes but the lifecycle. When the completion comes is not said (notes/assumptions/2). -/
def Obligations.EncEncryptsTheLatchedOperands : Prop :=
  ∀ (ign : BitVec 12) (s : State), s.phase = .idle →
    ∃ t u, exec (.enc ign) s = .next t ∧
      t = { s with lop := 0x1, ldin := s.din, lkey := s.key, phase := .busy, done := false,
                   wait := t.wait, draws := t.draws } ∧
      complete t = .next u ∧
      u = { t with dout := encrypt sboxFwd s.din s.key,
                   phase := .idle, done := true, wait := u.wait }

/-- DEC (R164): accepted while IDLE, and its completion writes decrypt(DIN, KEY) to DOUT. Nothing else changes but the lifecycle. When the completion comes is not said (notes/assumptions/2). -/
def Obligations.DecDecryptsTheLatchedOperands : Prop :=
  ∀ (ign : BitVec 12) (s : State), s.phase = .idle →
    ∃ t u, exec (.dec ign) s = .next t ∧
      t = { s with lop := 0x2, ldin := s.din, lkey := s.key, phase := .busy, done := false,
                   wait := t.wait, draws := t.draws } ∧
      complete t = .next u ∧
      u = { t with dout := decrypt sboxFwd s.din s.key,
                   phase := .idle, done := true, wait := u.wait }

/-- KEYEXP (R151): accepted while IDLE, and its completion writes the three round keys, RK0 being the latched key, and
leaves DOUT. Nothing else changes but the lifecycle. When the completion comes is not said (notes/assumptions/2). -/
def Obligations.KeyexpWritesTheThreeRoundKeys : Prop :=
  ∀ (ign : BitVec 12) (s : State), s.phase = .idle →
    ∃ t u, exec (.keyexp ign) s = .next t ∧
      t = { s with lop := 0x3, ldin := s.din, lkey := s.key, phase := .busy, done := false,
                   wait := t.wait, draws := t.draws } ∧
      complete t = .next u ∧
      u = { t with rk0 := s.key, rk1 := (keyExpansion sboxFwd s.key).2.1,
                   rk2 := (keyExpansion sboxFwd s.key).2.2,
                   phase := .idle, done := true, wait := u.wait }

/-- GFMUL (R105): accepted while IDLE, and its completion writes the product of DIN[7:4] and DIN[3:0], zero-extended, to
DOUT; DIN[15:8] and KEY have no effect. Nothing else changes but the lifecycle. When the completion comes is not said (notes/assumptions/2). -/
def Obligations.GfmulMultipliesTheTwoLowNibbles : Prop :=
  ∀ (ign : BitVec 12) (s : State), s.phase = .idle →
    ∃ t u, exec (.gfmul ign) s = .next t ∧
      t = { s with lop := 0x4, ldin := s.din, lkey := s.key, phase := .busy, done := false,
                   wait := t.wait, draws := t.draws } ∧
      complete t = .next u ∧
      u = { t with dout := (gfmul (s.din.extractLsb' 4 4) (s.din.extractLsb' 0 4)).setWidth 16,
                   phase := .idle, done := true, wait := u.wait }

/-- SBOX (R120): accepted while IDLE, and its completion writes the four nibbles of DIN, each through SBOX_FWD, to
DOUT. Nothing else changes but the lifecycle. When the completion comes is not said (notes/assumptions/2). -/
def Obligations.SboxSubstitutesTheFourNibbles : Prop :=
  ∀ (ign : BitVec 12) (s : State), s.phase = .idle →
    ∃ t u, exec (.sbox ign) s = .next t ∧
      t = { s with lop := 0x5, ldin := s.din, lkey := s.key, phase := .busy, done := false,
                   wait := t.wait, draws := t.draws } ∧
      complete t = .next u ∧
      u = { t with dout := lookup sboxFwd (nib3 s.din) ++ lookup sboxFwd (nib2 s.din) ++
                         lookup sboxFwd (nib1 s.din) ++ lookup sboxFwd (nib0 s.din),
                   phase := .idle, done := true, wait := u.wait }

/-- SBOXINV (R121): accepted while IDLE, and its completion writes the four nibbles of DIN, each through SBOX_INV, to
DOUT, so that SBOX of the result is DIN again. Nothing else changes but the lifecycle. When the completion comes is not
said (notes/assumptions/2). -/
def Obligations.SboxinvUndoesSboxNibbleByNibble : Prop :=
  ∀ (ign : BitVec 12) (s : State), s.phase = .idle →
    ∃ t u, exec (.sboxinv ign) s = .next t ∧
      t = { s with lop := 0x6, ldin := s.din, lkey := s.key, phase := .busy, done := false,
                   wait := t.wait, draws := t.draws } ∧
      complete t = .next u ∧
      u = { t with dout := lookup sboxInv (nib3 s.din) ++ lookup sboxInv (nib2 s.din) ++
                             lookup sboxInv (nib1 s.din) ++ lookup sboxInv (nib0 s.din),
                   phase := .idle, done := true, wait := u.wait } ∧
      subBlock sboxFwd u.dout = s.din

/-- R82: the engine's completion step, for each command latched: what it writes, and that it writes nothing else. The
schedule's `wait` is the model's own (notes/assumptions/2). -/
def Obligations.CompletionCommitsTheLatchedCommand : Prop :=
  ∀ (s : State) (c : Command), decodeCmd (zext16 s.lop) = some c →
    ∃ t, complete s = .next t ∧
      t = { s with
        dout := (commandOutputs c s.ldin s.lkey (resultRegs s)).1
        rk0 := (commandOutputs c s.ldin s.lkey (resultRegs s)).2.1
        rk1 := (commandOutputs c s.ldin s.lkey (resultRegs s)).2.2.1
        rk2 := (commandOutputs c s.ldin s.lkey (resultRegs s)).2.2.2
        phase := .idle, done := true, wait := t.wait }

/-- R32: what a command commits depends on LOP, LDIN and LKEY alone, and never on DIN, KEY, DOUT or RK0..RK2: two states
that agree on the latches get the same DOUT from every command but KEYEXP, and the same round keys from KEYEXP. -/
def Obligations.CompletionDependsOnTheLatchesAlone : Prop :=
  ∀ s s' t t' : State, s.lop = s'.lop → s.ldin = s'.ldin → s.lkey = s'.lkey →
    complete s = .next t → complete s' = .next t' →
      (s.lop ≠ 0x3 → t.dout = t'.dout) ∧
      (s.lop = 0x3 → t.rk0 = t'.rk0 ∧ t.rk1 = t'.rk1 ∧ t.rk2 = t'.rk2)

/-- R88: host writes to DIN and KEY while BUSY update the register and do not affect the command in flight: the
completion commits what it would have committed without them. -/
def Obligations.OperandWritesDoNotAffectTheCommandInFlight : Prop :=
  ∀ (s t : State) (v : Block), s.phase = .busy → complete s = .next t →
    (∃ u, exec (.wr .din v) s = .next u ∧ u.din = v ∧ complete u = .next { t with din := v }) ∧
    (∃ u, exec (.wr .key v) s = .next u ∧ u.key = v ∧ complete u = .next { t with key := v })

/-- R206: BUSY is 1 and DONE 0 in the state an accepted CMD write gives, and after the completion BUSY is 0 and
DONE 1. -/
def Obligations.AcceptanceIsVisibleInStatusAtOnce : Prop :=
  ∀ (s : State) (c : Command) (ign : BitVec 12), s.phase = .idle →
    ∃ t u, exec (c.instr ign) s = .next t ∧ complete t = .next u ∧
      (memRead .status t).getLsbD 0 = true ∧ (memRead .status t).getLsbD 1 = false ∧
      (memRead .status u).getLsbD 0 = false ∧ (memRead .status u).getLsbD 1 = true

/-- R183: the error bits are sticky: a step that turns ILL or OVR off is the reset or a STATUS write with a 1 at its
bit. -/
def Obligations.ErrorBitsAreSticky : Prop :=
  ∀ s t : State, step s = .next t → s.resetLine = false →
    (s.ill = true → t.ill = false → ∃ v, nextHostWrite s = some (.status, v) ∧ v.getLsbD 2 = true) ∧
    (s.ovr = true → t.ovr = false → ∃ v, nextHostWrite s = some (.status, v) ∧ v.getLsbD 3 = true)

/-- R182: ILL and OVR are turned on by a CMD write alone, ILL by a reserved opcode while IDLE, OVR while BUSY. -/
def Obligations.ErrorsComeFromCmdWritesOnly : Prop :=
  ∀ s t : State, step s = .next t →
    (s.ill = false → t.ill = true →
      ∃ v, nextHostWrite s = some (.cmd, v) ∧ s.phase = .idle ∧ decodeCmd v = none) ∧
    (s.ovr = false → t.ovr = true → ∃ v, nextHostWrite s = some (.cmd, v) ∧ s.phase = .busy)

/-- A command starts, and LOP, LDIN and LKEY change, by an accepted CMD write alone (R23, R30, R81); reset apart. -/
def Obligations.OnlyAcceptanceStartsACommand : Prop :=
  ∀ s t : State, step s = .next t → s.resetLine = false →
    (s.phase = .idle ∧ t.phase = .busy) ∨ t.lop ≠ s.lop ∨ t.ldin ≠ s.ldin ∨ t.lkey ≠ s.lkey →
      ∃ v, nextHostWrite s = some (.cmd, v) ∧ decodeCmd v ≠ none ∧ s.phase = .idle ∧ t.phase = .busy ∧
        t.lop = opField v ∧ t.ldin = s.din ∧ t.lkey = s.key

/-- R28: only the host writes the operand registers: a step that changes DIN or KEY is the reset or a host write of that
register, with the value written. -/
def Obligations.OnlyTheHostWritesOperandRegisters : Prop :=
  ∀ s t : State, step s = .next t → s.resetLine = false →
    (t.din ≠ s.din → nextHostWrite s = some (.din, t.din)) ∧
    (t.key ≠ s.key → nextHostWrite s = some (.key, t.key))

/-- R26, R27, R28: only the engine's completion step writes the result registers, DOUT by every command but KEYEXP and
RK0..RK2 by KEYEXP alone; reset apart. -/
def Obligations.OnlyCompletionWritesResultRegisters : Prop :=
  ∀ s t : State, step s = .next t → s.resetLine = false →
    (t.dout ≠ s.dout → engineTurn s = true ∧ s.lop ≠ 0x3) ∧
    (t.rk0 ≠ s.rk0 ∨ t.rk1 ≠ s.rk1 ∨ t.rk2 ≠ s.rk2 → engineTurn s = true ∧ s.lop = 0x3)

/-- R50: once IDLE, the result registers keep what they hold and a read returns it, until a command completes or a
reset. -/
def Obligations.ResultsStayWhileIdle : Prop :=
  ∀ s t : State, s.phase = .idle → s.resetLine = false → step s = .next t →
    resultRegs t = resultRegs s ∧
    memRead .dout s = s.dout ∧ memRead .rk0 s = s.rk0 ∧ memRead .rk1 s = s.rk1 ∧ memRead .rk2 s = s.rk2

/-- R194: with nothing pending and PHASE = IDLE the block waits. -/
def Obligations.IdleBlockWaits : Prop :=
  ∀ s : State, s.phase = .idle → s.script = [] → s.resetLine = false → step s = .next s

/-! ### Reset (70_reset_and_hazards.md) -/

/-- The reset (R200), in every state and with precedence over every step (R184), leaves every register and all hidden
state at the reset values; a command in flight is abandoned, so the engine's step is not enabled after it. That the event
is a raised line of the state is the model's choice (notes/assumptions/8). -/
def Obligations.ResetClearsTheEngineAndAbandonsTheCommand : Prop :=
  ∀ s : State, s.resetLine = true →
    ∃ t, step s = .next t ∧
      t.din = 0 ∧ t.key = 0 ∧ t.dout = 0 ∧ t.rk0 = 0 ∧ t.rk1 = 0 ∧ t.rk2 = 0 ∧
      t.phase = .idle ∧ t.done = false ∧ t.ill = false ∧ t.ovr = false ∧
      t.lop = 0 ∧ t.ldin = 0 ∧ t.lkey = 0 ∧
      (∀ reg, memRead reg t = 0) ∧ engineTurn t = false

/-- The reset event loses the result of a command in flight: a completion that falls just before it changes nothing that
the reset leaves (R200; the two placements of R80 cannot be told apart afterwards). -/
def Obligations.ResetForgetsACompletion : Prop :=
  ∀ s t : State, complete s = .next t → applyReset t = applyReset s

/-! ### Host scripts (30_encoding.md R68, R69) -/

/-- R69: the expansions of the pseudo-instructions, and `poll`: it reads STATUS into h and comes again while h[0] = 1, one
read a step (notes/assumptions/10). -/
def Obligations.PollRepeatsWhileBusy : Prop :=
  (∀ op, expandLine (.run op) = expandLine (.wr .cmd op) ++ expandLine .poll) ∧
  (∀ dst src, expandLine (.mv dst src) = expandLine (.rd src) ++ expandLine (.wrh dst)) ∧
  (∀ (s : State) (rest : List HostAction), s.resetLine = false → engineTurn s = false → s.script = .poll :: rest →
    step s = .next { hostTakes (if s.phase = .busy then .poll :: rest else rest) s with
      h := statusWord s, hDefined := true })

/-- R68: `wrh REG` writes the current value of h once h is defined, and is refused before (93 I11, notes/assumptions/9). -/
def Obligations.WrhWritesTheScratchValue : Prop :=
  ∀ (s : State) (reg : Reg) (rest : List HostAction), s.resetLine = false → engineTurn s = false →
    s.script = .wrh reg :: rest →
      (s.hDefined = true → step s = exec (.wr reg s.h) (hostTakes rest s)) ∧
      (s.hDefined = false → step s = .refused .scratchUndefined)

/-! ### The cipher mathematics (41 to 45) -/

/-- R100: `gfmul` is the product in GF(2)[z]/(z^4+z+1), nibble bit i being the coefficient of z^i: the two polynomials
differ by a multiple of the modulus. -/
def Obligations.GfmulIsTheFieldProduct : Prop :=
  ∀ x y : Nibble,
    (Polynomial.X ^ 4 + Polynomial.X + 1 : Polynomial (ZMod 2)) ∣
      (∑ i : Fin 4, if x.getLsbD i then (Polynomial.X : Polynomial (ZMod 2)) ^ (i : Nat) else 0) *
        (∑ i : Fin 4, if y.getLsbD i then (Polynomial.X : Polynomial (ZMod 2)) ^ (i : Nat) else 0) -
      (∑ i : Fin 4, if (gfmul x y).getLsbD i then (Polynomial.X : Polynomial (ZMod 2)) ^ (i : Nat) else 0)

/-- R103: the laws of the multiplier. -/
def Obligations.GfmulIsAFieldMultiplication : Prop :=
  (∀ x : Nibble, gfmul x 0 = 0 ∧ gfmul x 1 = x) ∧
  (∀ x y : Nibble, gfmul x y = gfmul y x) ∧
  (∀ x y z : Nibble, gfmul (gfmul x y) z = gfmul x (gfmul y z)) ∧
  (∀ x y z : Nibble, gfmul x (y ^^^ z) = gfmul x y ^^^ gfmul x z) ∧
  (∀ x y : Nibble, gfmul x y = 0 → x = 0 ∨ y = 0) ∧
  (∀ x : Nibble, x ≠ 0 → ∃! y, gfmul x y = 1)

/-- R112: block-to-state and state-to-block are mutual inverses. -/
def Obligations.BlockAndStateAreMutualInverses : Prop :=
  (∀ b : Block, stateToBlock (blockToState b) = b) ∧
  (∀ s : NibbleMatrix, blockToState (stateToBlock s) = s)

/-- For every permutation, entry n of the inverse table is m exactly when the table maps m to n (R114). The second clause,
the values of SBOX_INV, is about the default table, which is the model's choice (notes/assumptions/1): R113 marks its
values as general knowledge, and R114 derives these from them. -/
def Obligations.InverseTableInvertsEveryPermutation : Prop :=
  (∀ (box : SboxTable), box.wf = true → ∀ m n : Nibble, lookup (inverseTable box) n = m ↔ lookup box m = n) ∧
  sboxInv.entries = [0xA, 0x5, 0x9, 0xB, 0x1, 0x7, 0x8, 0xF, 0x6, 0x0, 0x2, 0x3, 0xC, 0x4, 0xD, 0xE]

/-- R119: the round-trip property, for every permutation: on nibbles, on states, on blocks, and with the tables
swapped. -/
def Obligations.SubstitutionRoundTrips : Prop :=
  ∀ (box : SboxTable), box.wf = true →
    (∀ n, lookup (inverseTable box) (lookup box n) = n ∧ lookup box (lookup (inverseTable box) n) = n) ∧
    (∀ s, subNibbles (inverseTable box) (subNibbles box s) = s ∧
      subNibbles box (subNibbles (inverseTable box) s) = s) ∧
    (∀ b, subBlock (inverseTable box) (subBlock box b) = b ∧ subBlock box (subBlock (inverseTable box) b) = b)

/-- R131, R135, R138: each linear layer is undone by its inverse, on every state. -/
def Obligations.LinearLayersAreInvertible : Prop :=
  (∀ s, shiftRowsInverse (shiftRows s) = s ∧ shiftRows (shiftRowsInverse s) = s ∧ shiftRowsInverse s = shiftRows s) ∧
  mulColumns mixMatrix mixInvMatrix = ⟨1, 0, 0, 1⟩ ∧ mulColumns mixInvMatrix mixMatrix = ⟨1, 0, 0, 1⟩ ∧
  (∀ s, mixColumnsInverse (mixColumns s) = s ∧ mixColumns (mixColumnsInverse s) = s) ∧
  (∀ s k, addRoundKey (addRoundKey s k) k = s)

/-- R132, R136, R138: the block forms of the linear layers. -/
def Obligations.LinearLayersHaveTheirBlockForms : Prop :=
  (∀ s, stateToBlock (shiftRows s) = blockSR (stateToBlock s)) ∧
  (∀ s, stateToBlock (mixColumns s) = blockMC (stateToBlock s)) ∧
  (∀ s, stateToBlock (mixColumnsInverse s) = blockMCI (stateToBlock s)) ∧
  (∀ s k, stateToBlock (addRoundKey s k) = stateToBlock s ^^^ k) ∧
  (∀ s k, addRoundKey s k = ⟨s.s00 ^^^ nib3 k, s.s01 ^^^ nib2 k, s.s10 ^^^ nib1 k, s.s11 ^^^ nib0 k⟩)

/-- R133: MixColumns column by column. -/
def Obligations.MixColumnsMixesEachColumn : Prop :=
  ∀ s : NibbleMatrix, mixColumns s =
    { s00 := s.s00 ^^^ gfmul 4 s.s10, s01 := s.s01 ^^^ gfmul 4 s.s11,
      s10 := gfmul 4 s.s00 ^^^ s.s10, s11 := gfmul 4 s.s01 ^^^ s.s11 }

/-- R145: rotate_word swaps the nibbles of a word. R118: sub_word substitutes its two nibbles, each in its place. R147 to
R149: the words of the key schedule and their assembly; key0 is the cipher key. -/
def Obligations.KeyExpansionFollowsTheSchedule : Prop :=
  (∀ w : KeyWord, rotateWord w = w.extractLsb' 0 4 ++ w.extractLsb' 4 4) ∧
  (∀ (box : SboxTable) (w : KeyWord),
    subWord box w = lookup box (w.extractLsb' 4 4) ++ lookup box (w.extractLsb' 0 4)) ∧
  ∀ (box : SboxTable) (k : Block),
    ∃ w0 w1 w2 w3 w4 w5 : KeyWord,
      w0 = k.extractLsb' 8 8 ∧ w1 = k.extractLsb' 0 8 ∧
      w2 = subWord box (rotateWord w1) ^^^ 0x80 ^^^ w0 ∧ w3 = w2 ^^^ w1 ∧
      w4 = subWord box (rotateWord w3) ^^^ 0x30 ^^^ w2 ∧ w5 = w4 ^^^ w3 ∧
      keyExpansion box k = (w0 ++ w1, w2 ++ w3, w4 ++ w5) ∧ (keyExpansion box k).1 = k

/-- R160: encrypt in block form, for every table. -/
def Obligations.EncryptHasItsBlockForm : Prop :=
  ∀ (box : SboxTable) (p k : Block),
    encrypt box p k =
      blockSR (subBlock box (blockMC (blockSR (subBlock box (p ^^^ (keyExpansion box k).1))) ^^^
        (keyExpansion box k).2.1)) ^^^ (keyExpansion box k).2.2

/-- R162: the primary correctness property, for every permutation as S-box: decrypt undoes encrypt for every block and
key, and for a fixed key both are permutations of the blocks. -/
def Obligations.DecryptUndoesEncrypt : Prop :=
  ∀ (box : SboxTable), box.wf = true →
    (∀ p k : Block, decrypt box (encrypt box p k) k = p) ∧
    (∀ k : Block, Function.Bijective (fun p => encrypt box p k) ∧ Function.Bijective (fun c => decrypt box c k))

/-! ### Runs -/

/-- The lifecycle invariant is kept by every step. -/
def Obligations.StepKeepsTheLifecycle : Prop :=
  ∀ s t : State, LifecycleInv s → step s = .next t → LifecycleInv t

/-- The round-key registers hold the reset values or one whole expansion, after every step. -/
def Obligations.StepKeepsTheRoundKeysWhole : Prop :=
  ∀ s t : State, RoundKeysInv s → step s = .next t → RoundKeysInv t

/-- Right after reset every register reads 0x0000 (R20, R201), the round-key invariant holds, and with every
well-formed script the state is safe. -/
def Obligations.ResetStateIsSafe : Prop :=
  (∀ reg, memRead reg State.reset = 0) ∧ RoundKeysInv State.reset ∧
  ∀ script : List HostAction, scriptWf false script = true → SafeState { State.reset with script := script }

/-- R85, R180: from a safe state the machine never stops: every step answers a safe next state, no fault and no
refusal. -/
def Obligations.SafeStatesNeverStop : Prop :=
  ∀ s : State, SafeState s → ∃ t, step s = .next t ∧ SafeState t

/-- R86: a command that has been accepted completes after finitely many steps unless a reset intervenes: from a safe
BUSY state with no reset raised or pending, at most `wait` host steps lead to the completion step of the same command on
the same latched operands. Finiteness of the latency is the spec's assumption (notes/assumptions/3). -/
def Obligations.AcceptedCommandCompletes : Prop :=
  ∀ s : State, SafeState s → s.phase = .busy → s.resetLine = false → .reset ∉ s.script →
    ∃ n t u, n ≤ s.wait ∧ Sys2Proof.core.run n s = .next t ∧ engineTurn t = true ∧ step t = .next u ∧
      t.lop = s.lop ∧ t.ldin = s.ldin ∧ t.lkey = s.lkey ∧ resultRegs t = resultRegs s ∧
      u.phase = .idle ∧ u.done = true

/-- The result-read rule at the whole machine (R69, R82, R204): from any idle state, whatever its registers hold and
wherever the completion falls, `run OP` ends with the command's result in the result registers, computed from DIN and
KEY as they were, BUSY 0 and DONE 1, and every other register as it was. -/
def Obligations.RunLineEndsWithTheResult : Prop :=
  ∀ (s : State) (c : Command) (ign : BitVec 12) (rest : List HostAction),
    s.phase = .idle → s.resetLine = false → s.script = expandLine (.run (cmdWord c ign)) ++ rest →
      ∃ n t, Sys2Proof.core.run n s = .next t ∧ t.script = rest ∧ t.resetLine = false ∧
        t.phase = .idle ∧ t.done = true ∧ t.lop = c.opcode ∧
        resultRegs t = commandOutputs c s.din s.key (resultRegs s) ∧
        t.h = statusWord t ∧ t.h.getLsbD 0 = false ∧ t.hDefined = true ∧
        t.din = s.din ∧ t.key = s.key ∧ t.ill = s.ill ∧ t.ovr = s.ovr

/-- The round trip through the registers (R162 at the machine): after ENC completes, moving DOUT to DIN and completing
DEC leaves the first plaintext in DOUT, and KEY and the round-key registers as they were. -/
def Obligations.EncThenDecRestoresTheBlock : Prop :=
  ∀ (s : State) (ign ign' : BitVec 12), s.phase = .idle →
    ∃ t1 t2 t3 t4 t5, exec (.enc ign) s = .next t1 ∧ complete t1 = .next t2 ∧
      exec (.wr .din t2.dout) t2 = .next t3 ∧
      exec (.dec ign') t3 = .next t4 ∧ complete t4 = .next t5 ∧
      t5.dout = s.din ∧ t5.key = s.key ∧ (t5.rk0, t5.rk1, t5.rk2) = (s.rk0, s.rk1, s.rk2)
end

