-- ==== Sys2Proof/Laws/Encoding.lean ====
section
/-! SUPPORT. The small lemmas of the encoding: fields of the words the encoder builds, and registers and opcodes against
their numbers. -/

namespace Sys2Proof.Machine

@[simp] theorem ofIndex_index (r : Reg) : Reg.ofIndex r.index = r := by cases r <;> rfl

theorem index_ofIndex : ∀ i : BitVec 3, (Reg.ofIndex i).index = i := by decide

theorem index_injective {r r' : Reg} (h : r.index = r'.index) : r = r' := by
  rw [← ofIndex_index r, ← ofIndex_index r', h]

@[simp] theorem decodeOp_opcode (c : Command) : decodeOp c.opcode = some c := by cases c <;> rfl

theorem decodeOp_eq_some : ∀ (op : Nibble) (c : Command), decodeOp op = some c → c.opcode = op := by
  intro op c
  revert op
  cases c <;> decide

/-- The low field of a concatenation, and the high one. -/
theorem low_of_append {m n : Nat} (a : BitVec m) (b : BitVec n) : (a ++ b).extractLsb' 0 n = b := by
  ext i hi
  simp only [BitVec.getElem_extractLsb', BitVec.getLsbD_append]
  rw [if_pos (by omega), Nat.zero_add, BitVec.getLsbD_eq_getElem]

theorem high_of_append {m n : Nat} (a : BitVec m) (b : BitVec n) : (a ++ b).extractLsb' n m = a := by
  ext i hi
  simp only [BitVec.getElem_extractLsb', BitVec.getLsbD_append]
  rw [if_neg (by omega), show n + i - n = i by omega, BitVec.getLsbD_eq_getElem]

@[simp] theorem opField_cmdWord (c : Command) (ign : BitVec 12) : opField (cmdWord c ign) = c.opcode :=
  low_of_append ign c.opcode

@[simp] theorem ignField_cmdWord (c : Command) (ign : BitVec 12) : ignField (cmdWord c ign) = ign :=
  high_of_append ign c.opcode

@[simp] theorem decodeCmd_cmdWord (c : Command) (ign : BitVec 12) : decodeCmd (cmdWord c ign) = some c := by
  simp [decodeCmd]

@[simp] theorem opField_zext16 (n : Nibble) : opField (zext16 n) = n := by
  unfold opField zext16
  ext i hi
  simp [BitVec.getElem_extractLsb', hi]
  omega

@[simp] theorem decodeCmd_zext16 (n : Nibble) : decodeCmd (zext16 n) = decodeOp n := by
  simp [decodeCmd]

/-- A word splits into the two fields it is read by. -/
theorem append_fields (v : Block) : ignField v ++ opField v = v := by
  unfold ignField opField
  ext i hi
  simp only [BitVec.getElem_append, BitVec.getElem_extractLsb', Nat.zero_add]
  split
  · rw [BitVec.getLsbD_eq_getElem]
  · rw [show 4 + (i - 4) = i by omega, BitVec.getLsbD_eq_getElem]

theorem busWord_write (w : Bool) (r : Reg) (d : Block) : (busWord w r d).getLsbD 19 = w := by
  have h := BitVec.getLsbD_append (x := BitVec.ofBool w) (y := r.index ++ d) (i := 19)
  refine Eq.trans h ?_
  rw [if_neg (by omega)]
  simp

theorem busWord_rest (w : Bool) (r : Reg) (d : Block) : (busWord w r d).extractLsb' 0 19 = r.index ++ d :=
  low_of_append (BitVec.ofBool w) (r.index ++ d)

theorem busWord_reg (w : Bool) (r : Reg) (d : Block) : (busWord w r d).extractLsb' 16 3 = r.index := by
  have h : (busWord w r d).extractLsb' 16 3 = ((busWord w r d).extractLsb' 0 19).extractLsb' 16 3 := by
    ext i hi
    simp only [BitVec.getElem_extractLsb', BitVec.getLsbD_extractLsb', Nat.zero_add]
    simp [show 16 + i < 19 by omega]
  rw [h, busWord_rest]
  exact high_of_append r.index d

theorem busWord_data (w : Bool) (r : Reg) (d : Block) : (busWord w r d).extractLsb' 0 16 = d := by
  have h : (busWord w r d).extractLsb' 0 16 = ((busWord w r d).extractLsb' 0 19).extractLsb' 0 16 := by
    ext i hi
    simp only [BitVec.getElem_extractLsb', BitVec.getLsbD_extractLsb', Nat.zero_add]
    simp [show i < 19 by omega]
  rw [h, busWord_rest]
  exact low_of_append r.index d

@[simp] theorem decodeBus_busWord (w : Bool) (r : Reg) (d : Block) :
    decodeBus (busWord w r d) = if w then .wr r d else .rd r d := by
  simp only [decodeBus, busWord_write, busWord_reg, busWord_data, ofIndex_index]

@[simp] theorem writeOf_busWord (w : Bool) (r : Reg) (d : Block) :
    writeOf (.bus (busWord w r d)) = if w then some (r, d) else none := by
  simp only [writeOf, busWord_write, busWord_reg, busWord_data, ofIndex_index]

end Sys2Proof.Machine
end

