-- ==== Sys2Proof/Laws/Blocks.lean ====
section
/-! SUPPORT. The bits of the values that the cipher's functions assemble and take apart, and the fields of the functions on
the nibble matrix. -/

namespace Sys2Proof.Machine

/-- Which nibble a bit of a block is in (42_state_substitution.md R111). -/
theorem getLsbD_stateToBlock (s : NibbleMatrix) (i : Nat) :
    (stateToBlock s).getLsbD i =
      if i < 4 then s.s11.getLsbD i
      else if i < 8 then s.s10.getLsbD (i - 4)
      else if i < 12 then s.s01.getLsbD (i - 8)
      else s.s00.getLsbD (i - 12) := by
  have h : (stateToBlock s).getLsbD i = (s.s00 ++ s.s01 ++ s.s10 ++ s.s11).getLsbD i := rfl
  rw [h]
  simp only [BitVec.getLsbD_append]
  simp only [Nat.sub_sub, Nat.reduceAdd]
  split_ifs <;> first | rfl | omega

theorem getLsbD_nib3 (v : Block) (i : Nat) : (nib3 v).getLsbD i = (decide (i < 4) && v.getLsbD (12 + i)) := by
  simp only [nib3, BitVec.getLsbD_extractLsb']

theorem getLsbD_nib2 (v : Block) (i : Nat) : (nib2 v).getLsbD i = (decide (i < 4) && v.getLsbD (8 + i)) := by
  simp only [nib2, BitVec.getLsbD_extractLsb']

theorem getLsbD_nib1 (v : Block) (i : Nat) : (nib1 v).getLsbD i = (decide (i < 4) && v.getLsbD (4 + i)) := by
  simp only [nib1, BitVec.getLsbD_extractLsb']

theorem getLsbD_nib0 (v : Block) (i : Nat) : (nib0 v).getLsbD i = (decide (i < 4) && v.getLsbD i) := by
  simp only [nib0, BitVec.getLsbD_extractLsb', Nat.zero_add]

@[simp] theorem blockToState_s00 (b : Block) : (blockToState b).s00 = nib3 b := rfl
@[simp] theorem blockToState_s01 (b : Block) : (blockToState b).s01 = nib2 b := rfl
@[simp] theorem blockToState_s10 (b : Block) : (blockToState b).s10 = nib1 b := rfl
@[simp] theorem blockToState_s11 (b : Block) : (blockToState b).s11 = nib0 b := rfl

@[simp] theorem subNibbles_s00 (box : SboxTable) (s : NibbleMatrix) : (subNibbles box s).s00 = lookup box s.s00 := rfl
@[simp] theorem subNibbles_s01 (box : SboxTable) (s : NibbleMatrix) : (subNibbles box s).s01 = lookup box s.s01 := rfl
@[simp] theorem subNibbles_s10 (box : SboxTable) (s : NibbleMatrix) : (subNibbles box s).s10 = lookup box s.s10 := rfl
@[simp] theorem subNibbles_s11 (box : SboxTable) (s : NibbleMatrix) : (subNibbles box s).s11 = lookup box s.s11 := rfl

@[simp] theorem shiftRows_s00 (s : NibbleMatrix) : (shiftRows s).s00 = s.s00 := rfl
@[simp] theorem shiftRows_s01 (s : NibbleMatrix) : (shiftRows s).s01 = s.s01 := rfl
@[simp] theorem shiftRows_s10 (s : NibbleMatrix) : (shiftRows s).s10 = s.s11 := rfl
@[simp] theorem shiftRows_s11 (s : NibbleMatrix) : (shiftRows s).s11 = s.s10 := rfl

/-- The rows of a lookup cover every nibble: a nibble is its row and its column (R115). -/
theorem lookup_append (box : SboxTable) (row col : BitVec 2) : lookup box (row ++ col) = box row col := by
  unfold lookup
  rw [low_of_append row col, high_of_append row col]

/-- The bytes of a key, put together again (44_key_schedule.md R147). -/
theorem highByte_append_lowByte (v : Block) : highByte v ++ lowByte v = v := by
  unfold highByte lowByte
  have h := BitVec.extractLsb'_append_extractLsb'_eq_extractLsb' (x := v) (start₁ := 0) (start₂ := 8)
    (len₁ := 8) (len₂ := 8) (by rfl)
  simpa using h

end Sys2Proof.Machine
end

