-- ==== Sys2Proof/Laws/State.lean ====
section
/-! SUPPORT. One lemma per field of the state and update of it, true by definition, so that no later proof unfolds a record
update. -/

namespace Sys2Proof.Machine

variable (s : State)

/-! ### raise_illegalOpcode -/

@[simp] theorem raise_illegalOpcode_din : (raise .illegalOpcode s).din = s.din := rfl
@[simp] theorem raise_illegalOpcode_key : (raise .illegalOpcode s).key = s.key := rfl
@[simp] theorem raise_illegalOpcode_dout : (raise .illegalOpcode s).dout = s.dout := rfl
@[simp] theorem raise_illegalOpcode_rk0 : (raise .illegalOpcode s).rk0 = s.rk0 := rfl
@[simp] theorem raise_illegalOpcode_rk1 : (raise .illegalOpcode s).rk1 = s.rk1 := rfl
@[simp] theorem raise_illegalOpcode_rk2 : (raise .illegalOpcode s).rk2 = s.rk2 := rfl
@[simp] theorem raise_illegalOpcode_done : (raise .illegalOpcode s).done = s.done := rfl
@[simp] theorem raise_illegalOpcode_ill : (raise .illegalOpcode s).ill = true := rfl
@[simp] theorem raise_illegalOpcode_ovr : (raise .illegalOpcode s).ovr = s.ovr := rfl
@[simp] theorem raise_illegalOpcode_phase : (raise .illegalOpcode s).phase = s.phase := rfl
@[simp] theorem raise_illegalOpcode_lop : (raise .illegalOpcode s).lop = s.lop := rfl
@[simp] theorem raise_illegalOpcode_ldin : (raise .illegalOpcode s).ldin = s.ldin := rfl
@[simp] theorem raise_illegalOpcode_lkey : (raise .illegalOpcode s).lkey = s.lkey := rfl
@[simp] theorem raise_illegalOpcode_h : (raise .illegalOpcode s).h = s.h := rfl
@[simp] theorem raise_illegalOpcode_hDefined : (raise .illegalOpcode s).hDefined = s.hDefined := rfl
@[simp] theorem raise_illegalOpcode_script : (raise .illegalOpcode s).script = s.script := rfl
@[simp] theorem raise_illegalOpcode_resetLine : (raise .illegalOpcode s).resetLine = s.resetLine := rfl
@[simp] theorem raise_illegalOpcode_wait : (raise .illegalOpcode s).wait = s.wait := rfl
@[simp] theorem raise_illegalOpcode_draws : (raise .illegalOpcode s).draws = s.draws := rfl

/-! ### raise_commandWhileBusy -/

@[simp] theorem raise_commandWhileBusy_din : (raise .commandWhileBusy s).din = s.din := rfl
@[simp] theorem raise_commandWhileBusy_key : (raise .commandWhileBusy s).key = s.key := rfl
@[simp] theorem raise_commandWhileBusy_dout : (raise .commandWhileBusy s).dout = s.dout := rfl
@[simp] theorem raise_commandWhileBusy_rk0 : (raise .commandWhileBusy s).rk0 = s.rk0 := rfl
@[simp] theorem raise_commandWhileBusy_rk1 : (raise .commandWhileBusy s).rk1 = s.rk1 := rfl
@[simp] theorem raise_commandWhileBusy_rk2 : (raise .commandWhileBusy s).rk2 = s.rk2 := rfl
@[simp] theorem raise_commandWhileBusy_done : (raise .commandWhileBusy s).done = s.done := rfl
@[simp] theorem raise_commandWhileBusy_ill : (raise .commandWhileBusy s).ill = s.ill := rfl
@[simp] theorem raise_commandWhileBusy_ovr : (raise .commandWhileBusy s).ovr = true := rfl
@[simp] theorem raise_commandWhileBusy_phase : (raise .commandWhileBusy s).phase = s.phase := rfl
@[simp] theorem raise_commandWhileBusy_lop : (raise .commandWhileBusy s).lop = s.lop := rfl
@[simp] theorem raise_commandWhileBusy_ldin : (raise .commandWhileBusy s).ldin = s.ldin := rfl
@[simp] theorem raise_commandWhileBusy_lkey : (raise .commandWhileBusy s).lkey = s.lkey := rfl
@[simp] theorem raise_commandWhileBusy_h : (raise .commandWhileBusy s).h = s.h := rfl
@[simp] theorem raise_commandWhileBusy_hDefined : (raise .commandWhileBusy s).hDefined = s.hDefined := rfl
@[simp] theorem raise_commandWhileBusy_script : (raise .commandWhileBusy s).script = s.script := rfl
@[simp] theorem raise_commandWhileBusy_resetLine : (raise .commandWhileBusy s).resetLine = s.resetLine := rfl
@[simp] theorem raise_commandWhileBusy_wait : (raise .commandWhileBusy s).wait = s.wait := rfl
@[simp] theorem raise_commandWhileBusy_draws : (raise .commandWhileBusy s).draws = s.draws := rfl

/-! ### statusWrite -/

@[simp] theorem statusWrite_din (v : Block) : (statusWrite v s).din = s.din := rfl
@[simp] theorem statusWrite_key (v : Block) : (statusWrite v s).key = s.key := rfl
@[simp] theorem statusWrite_dout (v : Block) : (statusWrite v s).dout = s.dout := rfl
@[simp] theorem statusWrite_rk0 (v : Block) : (statusWrite v s).rk0 = s.rk0 := rfl
@[simp] theorem statusWrite_rk1 (v : Block) : (statusWrite v s).rk1 = s.rk1 := rfl
@[simp] theorem statusWrite_rk2 (v : Block) : (statusWrite v s).rk2 = s.rk2 := rfl
@[simp] theorem statusWrite_done (v : Block) : (statusWrite v s).done = s.done := rfl
@[simp] theorem statusWrite_ill (v : Block) : (statusWrite v s).ill = (s.ill && !v.getLsbD 2) := rfl
@[simp] theorem statusWrite_ovr (v : Block) : (statusWrite v s).ovr = (s.ovr && !v.getLsbD 3) := rfl
@[simp] theorem statusWrite_phase (v : Block) : (statusWrite v s).phase = s.phase := rfl
@[simp] theorem statusWrite_lop (v : Block) : (statusWrite v s).lop = s.lop := rfl
@[simp] theorem statusWrite_ldin (v : Block) : (statusWrite v s).ldin = s.ldin := rfl
@[simp] theorem statusWrite_lkey (v : Block) : (statusWrite v s).lkey = s.lkey := rfl
@[simp] theorem statusWrite_h (v : Block) : (statusWrite v s).h = s.h := rfl
@[simp] theorem statusWrite_hDefined (v : Block) : (statusWrite v s).hDefined = s.hDefined := rfl
@[simp] theorem statusWrite_script (v : Block) : (statusWrite v s).script = s.script := rfl
@[simp] theorem statusWrite_resetLine (v : Block) : (statusWrite v s).resetLine = s.resetLine := rfl
@[simp] theorem statusWrite_wait (v : Block) : (statusWrite v s).wait = s.wait := rfl
@[simp] theorem statusWrite_draws (v : Block) : (statusWrite v s).draws = s.draws := rfl

/-! ### accept -/

@[simp] theorem accept_din (v : Block) : (accept v s).din = s.din := rfl
@[simp] theorem accept_key (v : Block) : (accept v s).key = s.key := rfl
@[simp] theorem accept_dout (v : Block) : (accept v s).dout = s.dout := rfl
@[simp] theorem accept_rk0 (v : Block) : (accept v s).rk0 = s.rk0 := rfl
@[simp] theorem accept_rk1 (v : Block) : (accept v s).rk1 = s.rk1 := rfl
@[simp] theorem accept_rk2 (v : Block) : (accept v s).rk2 = s.rk2 := rfl
@[simp] theorem accept_done (v : Block) : (accept v s).done = false := rfl
@[simp] theorem accept_ill (v : Block) : (accept v s).ill = s.ill := rfl
@[simp] theorem accept_ovr (v : Block) : (accept v s).ovr = s.ovr := rfl
@[simp] theorem accept_phase (v : Block) : (accept v s).phase = .busy := rfl
@[simp] theorem accept_lop (v : Block) : (accept v s).lop = opField v := rfl
@[simp] theorem accept_ldin (v : Block) : (accept v s).ldin = s.din := rfl
@[simp] theorem accept_lkey (v : Block) : (accept v s).lkey = s.key := rfl
@[simp] theorem accept_h (v : Block) : (accept v s).h = s.h := rfl
@[simp] theorem accept_hDefined (v : Block) : (accept v s).hDefined = s.hDefined := rfl
@[simp] theorem accept_script (v : Block) : (accept v s).script = s.script := rfl
@[simp] theorem accept_resetLine (v : Block) : (accept v s).resetLine = s.resetLine := rfl
@[simp] theorem accept_wait (v : Block) : (accept v s).wait = Config.latency s.draws := rfl
@[simp] theorem accept_draws (v : Block) : (accept v s).draws = s.draws + 1 := rfl

/-! ### finish -/

@[simp] theorem finish_din : (finish s).din = s.din := rfl
@[simp] theorem finish_key : (finish s).key = s.key := rfl
@[simp] theorem finish_dout : (finish s).dout = s.dout := rfl
@[simp] theorem finish_rk0 : (finish s).rk0 = s.rk0 := rfl
@[simp] theorem finish_rk1 : (finish s).rk1 = s.rk1 := rfl
@[simp] theorem finish_rk2 : (finish s).rk2 = s.rk2 := rfl
@[simp] theorem finish_done : (finish s).done = true := rfl
@[simp] theorem finish_ill : (finish s).ill = s.ill := rfl
@[simp] theorem finish_ovr : (finish s).ovr = s.ovr := rfl
@[simp] theorem finish_phase : (finish s).phase = .idle := rfl
@[simp] theorem finish_lop : (finish s).lop = s.lop := rfl
@[simp] theorem finish_ldin : (finish s).ldin = s.ldin := rfl
@[simp] theorem finish_lkey : (finish s).lkey = s.lkey := rfl
@[simp] theorem finish_h : (finish s).h = s.h := rfl
@[simp] theorem finish_hDefined : (finish s).hDefined = s.hDefined := rfl
@[simp] theorem finish_script : (finish s).script = s.script := rfl
@[simp] theorem finish_resetLine : (finish s).resetLine = s.resetLine := rfl
@[simp] theorem finish_wait : (finish s).wait = 0 := rfl
@[simp] theorem finish_draws : (finish s).draws = s.draws := rfl

/-! ### commitDout -/

@[simp] theorem commitDout_din (r : Block) : (commitDout r s).din = s.din := rfl
@[simp] theorem commitDout_key (r : Block) : (commitDout r s).key = s.key := rfl
@[simp] theorem commitDout_dout (r : Block) : (commitDout r s).dout = r := rfl
@[simp] theorem commitDout_rk0 (r : Block) : (commitDout r s).rk0 = s.rk0 := rfl
@[simp] theorem commitDout_rk1 (r : Block) : (commitDout r s).rk1 = s.rk1 := rfl
@[simp] theorem commitDout_rk2 (r : Block) : (commitDout r s).rk2 = s.rk2 := rfl
@[simp] theorem commitDout_done (r : Block) : (commitDout r s).done = true := rfl
@[simp] theorem commitDout_ill (r : Block) : (commitDout r s).ill = s.ill := rfl
@[simp] theorem commitDout_ovr (r : Block) : (commitDout r s).ovr = s.ovr := rfl
@[simp] theorem commitDout_phase (r : Block) : (commitDout r s).phase = .idle := rfl
@[simp] theorem commitDout_lop (r : Block) : (commitDout r s).lop = s.lop := rfl
@[simp] theorem commitDout_ldin (r : Block) : (commitDout r s).ldin = s.ldin := rfl
@[simp] theorem commitDout_lkey (r : Block) : (commitDout r s).lkey = s.lkey := rfl
@[simp] theorem commitDout_h (r : Block) : (commitDout r s).h = s.h := rfl
@[simp] theorem commitDout_hDefined (r : Block) : (commitDout r s).hDefined = s.hDefined := rfl
@[simp] theorem commitDout_script (r : Block) : (commitDout r s).script = s.script := rfl
@[simp] theorem commitDout_resetLine (r : Block) : (commitDout r s).resetLine = s.resetLine := rfl
@[simp] theorem commitDout_wait (r : Block) : (commitDout r s).wait = 0 := rfl
@[simp] theorem commitDout_draws (r : Block) : (commitDout r s).draws = s.draws := rfl

/-! ### commitRoundKeys -/

@[simp] theorem commitRoundKeys_din (k : Block × Block × Block) : (commitRoundKeys k s).din = s.din := rfl
@[simp] theorem commitRoundKeys_key (k : Block × Block × Block) : (commitRoundKeys k s).key = s.key := rfl
@[simp] theorem commitRoundKeys_dout (k : Block × Block × Block) : (commitRoundKeys k s).dout = s.dout := rfl
@[simp] theorem commitRoundKeys_rk0 (k : Block × Block × Block) : (commitRoundKeys k s).rk0 = k.1 := rfl
@[simp] theorem commitRoundKeys_rk1 (k : Block × Block × Block) : (commitRoundKeys k s).rk1 = k.2.1 := rfl
@[simp] theorem commitRoundKeys_rk2 (k : Block × Block × Block) : (commitRoundKeys k s).rk2 = k.2.2 := rfl
@[simp] theorem commitRoundKeys_done (k : Block × Block × Block) : (commitRoundKeys k s).done = true := rfl
@[simp] theorem commitRoundKeys_ill (k : Block × Block × Block) : (commitRoundKeys k s).ill = s.ill := rfl
@[simp] theorem commitRoundKeys_ovr (k : Block × Block × Block) : (commitRoundKeys k s).ovr = s.ovr := rfl
@[simp] theorem commitRoundKeys_phase (k : Block × Block × Block) : (commitRoundKeys k s).phase = .idle := rfl
@[simp] theorem commitRoundKeys_lop (k : Block × Block × Block) : (commitRoundKeys k s).lop = s.lop := rfl
@[simp] theorem commitRoundKeys_ldin (k : Block × Block × Block) : (commitRoundKeys k s).ldin = s.ldin := rfl
@[simp] theorem commitRoundKeys_lkey (k : Block × Block × Block) : (commitRoundKeys k s).lkey = s.lkey := rfl
@[simp] theorem commitRoundKeys_h (k : Block × Block × Block) : (commitRoundKeys k s).h = s.h := rfl
@[simp] theorem commitRoundKeys_hDefined (k : Block × Block × Block) : (commitRoundKeys k s).hDefined = s.hDefined := rfl
@[simp] theorem commitRoundKeys_script (k : Block × Block × Block) : (commitRoundKeys k s).script = s.script := rfl
@[simp] theorem commitRoundKeys_resetLine (k : Block × Block × Block) : (commitRoundKeys k s).resetLine = s.resetLine := rfl
@[simp] theorem commitRoundKeys_wait (k : Block × Block × Block) : (commitRoundKeys k s).wait = 0 := rfl
@[simp] theorem commitRoundKeys_draws (k : Block × Block × Block) : (commitRoundKeys k s).draws = s.draws := rfl

/-! ### readIntoScratch -/

@[simp] theorem readIntoScratch_din (r : Reg) : (readIntoScratch r s).din = s.din := rfl
@[simp] theorem readIntoScratch_key (r : Reg) : (readIntoScratch r s).key = s.key := rfl
@[simp] theorem readIntoScratch_dout (r : Reg) : (readIntoScratch r s).dout = s.dout := rfl
@[simp] theorem readIntoScratch_rk0 (r : Reg) : (readIntoScratch r s).rk0 = s.rk0 := rfl
@[simp] theorem readIntoScratch_rk1 (r : Reg) : (readIntoScratch r s).rk1 = s.rk1 := rfl
@[simp] theorem readIntoScratch_rk2 (r : Reg) : (readIntoScratch r s).rk2 = s.rk2 := rfl
@[simp] theorem readIntoScratch_done (r : Reg) : (readIntoScratch r s).done = s.done := rfl
@[simp] theorem readIntoScratch_ill (r : Reg) : (readIntoScratch r s).ill = s.ill := rfl
@[simp] theorem readIntoScratch_ovr (r : Reg) : (readIntoScratch r s).ovr = s.ovr := rfl
@[simp] theorem readIntoScratch_phase (r : Reg) : (readIntoScratch r s).phase = s.phase := rfl
@[simp] theorem readIntoScratch_lop (r : Reg) : (readIntoScratch r s).lop = s.lop := rfl
@[simp] theorem readIntoScratch_ldin (r : Reg) : (readIntoScratch r s).ldin = s.ldin := rfl
@[simp] theorem readIntoScratch_lkey (r : Reg) : (readIntoScratch r s).lkey = s.lkey := rfl
@[simp] theorem readIntoScratch_h (r : Reg) : (readIntoScratch r s).h = memRead r s := rfl
@[simp] theorem readIntoScratch_hDefined (r : Reg) : (readIntoScratch r s).hDefined = true := rfl
@[simp] theorem readIntoScratch_script (r : Reg) : (readIntoScratch r s).script = s.script := rfl
@[simp] theorem readIntoScratch_resetLine (r : Reg) : (readIntoScratch r s).resetLine = s.resetLine := rfl
@[simp] theorem readIntoScratch_wait (r : Reg) : (readIntoScratch r s).wait = s.wait := rfl
@[simp] theorem readIntoScratch_draws (r : Reg) : (readIntoScratch r s).draws = if readIsFree r s then s.draws + 1 else s.draws := rfl

/-! ### applyReset -/

@[simp] theorem applyReset_din : (applyReset s).din = 0 := rfl
@[simp] theorem applyReset_key : (applyReset s).key = 0 := rfl
@[simp] theorem applyReset_dout : (applyReset s).dout = 0 := rfl
@[simp] theorem applyReset_rk0 : (applyReset s).rk0 = 0 := rfl
@[simp] theorem applyReset_rk1 : (applyReset s).rk1 = 0 := rfl
@[simp] theorem applyReset_rk2 : (applyReset s).rk2 = 0 := rfl
@[simp] theorem applyReset_done : (applyReset s).done = false := rfl
@[simp] theorem applyReset_ill : (applyReset s).ill = false := rfl
@[simp] theorem applyReset_ovr : (applyReset s).ovr = false := rfl
@[simp] theorem applyReset_phase : (applyReset s).phase = .idle := rfl
@[simp] theorem applyReset_lop : (applyReset s).lop = 0 := rfl
@[simp] theorem applyReset_ldin : (applyReset s).ldin = 0 := rfl
@[simp] theorem applyReset_lkey : (applyReset s).lkey = 0 := rfl
@[simp] theorem applyReset_h : (applyReset s).h = s.h := rfl
@[simp] theorem applyReset_hDefined : (applyReset s).hDefined = s.hDefined := rfl
@[simp] theorem applyReset_script : (applyReset s).script = s.script := rfl
@[simp] theorem applyReset_resetLine : (applyReset s).resetLine = false := rfl
@[simp] theorem applyReset_wait : (applyReset s).wait = 0 := rfl
@[simp] theorem applyReset_draws : (applyReset s).draws = s.draws := rfl

/-! ### hostTakes -/

@[simp] theorem hostTakes_din (rest : List HostAction) : (hostTakes rest s).din = s.din := rfl
@[simp] theorem hostTakes_key (rest : List HostAction) : (hostTakes rest s).key = s.key := rfl
@[simp] theorem hostTakes_dout (rest : List HostAction) : (hostTakes rest s).dout = s.dout := rfl
@[simp] theorem hostTakes_rk0 (rest : List HostAction) : (hostTakes rest s).rk0 = s.rk0 := rfl
@[simp] theorem hostTakes_rk1 (rest : List HostAction) : (hostTakes rest s).rk1 = s.rk1 := rfl
@[simp] theorem hostTakes_rk2 (rest : List HostAction) : (hostTakes rest s).rk2 = s.rk2 := rfl
@[simp] theorem hostTakes_done (rest : List HostAction) : (hostTakes rest s).done = s.done := rfl
@[simp] theorem hostTakes_ill (rest : List HostAction) : (hostTakes rest s).ill = s.ill := rfl
@[simp] theorem hostTakes_ovr (rest : List HostAction) : (hostTakes rest s).ovr = s.ovr := rfl
@[simp] theorem hostTakes_phase (rest : List HostAction) : (hostTakes rest s).phase = s.phase := rfl
@[simp] theorem hostTakes_lop (rest : List HostAction) : (hostTakes rest s).lop = s.lop := rfl
@[simp] theorem hostTakes_ldin (rest : List HostAction) : (hostTakes rest s).ldin = s.ldin := rfl
@[simp] theorem hostTakes_lkey (rest : List HostAction) : (hostTakes rest s).lkey = s.lkey := rfl
@[simp] theorem hostTakes_h (rest : List HostAction) : (hostTakes rest s).h = s.h := rfl
@[simp] theorem hostTakes_hDefined (rest : List HostAction) : (hostTakes rest s).hDefined = s.hDefined := rfl
@[simp] theorem hostTakes_script (rest : List HostAction) : (hostTakes rest s).script = rest := rfl
@[simp] theorem hostTakes_resetLine (rest : List HostAction) : (hostTakes rest s).resetLine = s.resetLine := rfl
@[simp] theorem hostTakes_wait (rest : List HostAction) : (hostTakes rest s).wait = match s.phase with | .busy => s.wait - 1 | .idle => s.wait := rfl
@[simp] theorem hostTakes_draws (rest : List HostAction) : (hostTakes rest s).draws = s.draws := rfl

/-! ### withPendingWord -/

@[simp] theorem withPendingWord_din (w : HostWord) : (withPendingWord w s).din = s.din := rfl
@[simp] theorem withPendingWord_key (w : HostWord) : (withPendingWord w s).key = s.key := rfl
@[simp] theorem withPendingWord_dout (w : HostWord) : (withPendingWord w s).dout = s.dout := rfl
@[simp] theorem withPendingWord_rk0 (w : HostWord) : (withPendingWord w s).rk0 = s.rk0 := rfl
@[simp] theorem withPendingWord_rk1 (w : HostWord) : (withPendingWord w s).rk1 = s.rk1 := rfl
@[simp] theorem withPendingWord_rk2 (w : HostWord) : (withPendingWord w s).rk2 = s.rk2 := rfl
@[simp] theorem withPendingWord_done (w : HostWord) : (withPendingWord w s).done = s.done := rfl
@[simp] theorem withPendingWord_ill (w : HostWord) : (withPendingWord w s).ill = s.ill := rfl
@[simp] theorem withPendingWord_ovr (w : HostWord) : (withPendingWord w s).ovr = s.ovr := rfl
@[simp] theorem withPendingWord_phase (w : HostWord) : (withPendingWord w s).phase = s.phase := rfl
@[simp] theorem withPendingWord_lop (w : HostWord) : (withPendingWord w s).lop = s.lop := rfl
@[simp] theorem withPendingWord_ldin (w : HostWord) : (withPendingWord w s).ldin = s.ldin := rfl
@[simp] theorem withPendingWord_lkey (w : HostWord) : (withPendingWord w s).lkey = s.lkey := rfl
@[simp] theorem withPendingWord_h (w : HostWord) : (withPendingWord w s).h = s.h := rfl
@[simp] theorem withPendingWord_hDefined (w : HostWord) : (withPendingWord w s).hDefined = s.hDefined := rfl
@[simp] theorem withPendingWord_script (w : HostWord) : (withPendingWord w s).script = .word w :: s.script := rfl
@[simp] theorem withPendingWord_resetLine (w : HostWord) : (withPendingWord w s).resetLine = false := rfl
@[simp] theorem withPendingWord_wait (w : HostWord) : (withPendingWord w s).wait = match s.phase with | .busy => s.wait + 1 | .idle => s.wait := rfl
@[simp] theorem withPendingWord_draws (w : HostWord) : (withPendingWord w s).draws = s.draws := rfl

end Sys2Proof.Machine
end

