-- ==== Sys2Proof/Laws/Ops.lean ====
section
/-! SUPPORT. For each shared operation, once, everything it can do: callers cite these and unfold nothing. -/

namespace Sys2Proof.Machine

variable {s t : State}

/-- A write of CMD is one of three things. -/
theorem commandWrite_cases (v : Block) (s : State) :
    (s.phase = .busy ∧ commandWrite v s = raise .commandWhileBusy s) ∨
    (s.phase = .idle ∧ decodeCmd v = none ∧ commandWrite v s = raise .illegalOpcode s) ∨
    (s.phase = .idle ∧ (decodeCmd v).isSome = true ∧ commandWrite v s = accept v s) := by
  unfold commandWrite
  cases hp : s.phase with
  | busy => simp
  | idle => cases hd : decodeCmd v <;> simp

theorem commandWrite_busy (h : s.phase = .busy) (v : Block) :
    commandWrite v s = raise .commandWhileBusy s := by
  unfold commandWrite; rw [h]

theorem commandWrite_illegal (h : s.phase = .idle) {v : Block} (hv : decodeCmd v = none) :
    commandWrite v s = raise .illegalOpcode s := by
  unfold commandWrite; rw [h, hv]

theorem commandWrite_accept (h : s.phase = .idle) {v : Block} {c : Command} (hv : decodeCmd v = some c) :
    commandWrite v s = accept v s := by
  unfold commandWrite; rw [h, hv]

/-- A window write is one of these: an operand register set, a write of CMD or STATUS, or nothing. -/
theorem memWrite_cases (r : Reg) (v : Block) (s : State) :
    (r = .din ∧ memWrite r v s = { s with din := v }) ∨
    (r = .key ∧ memWrite r v s = { s with key := v }) ∨
    (r = .cmd ∧ memWrite r v s = commandWrite v s) ∨
    (r = .status ∧ memWrite r v s = statusWrite v s) ∨
    memWrite r v s = s := by
  cases r <;> simp [memWrite]

/-- A CMD write leaves everything that is neither the lifecycle, nor an error bit, nor a latch. -/
theorem commandWrite_frame (v : Block) (s : State) :
    (commandWrite v s).din = s.din ∧ (commandWrite v s).key = s.key ∧
    resultRegs (commandWrite v s) = resultRegs s ∧ (commandWrite v s).h = s.h ∧
    (commandWrite v s).hDefined = s.hDefined ∧ (commandWrite v s).script = s.script ∧
    (commandWrite v s).resetLine = s.resetLine := by
  rcases commandWrite_cases v s with ⟨-, he⟩ | ⟨-, -, he⟩ | ⟨-, -, he⟩ <;> rw [he] <;>
    exact ⟨rfl, rfl, rfl, rfl, rfl, rfl, rfl⟩

/-- No window write touches a result register or the host's side. -/
theorem memWrite_frame (r : Reg) (v : Block) (s : State) :
    resultRegs (memWrite r v s) = resultRegs s ∧ (memWrite r v s).h = s.h ∧
    (memWrite r v s).hDefined = s.hDefined ∧ (memWrite r v s).script = s.script ∧
    (memWrite r v s).resetLine = s.resetLine := by
  obtain ⟨-, -, hc⟩ := commandWrite_frame v s
  cases r <;> first | exact hc | exact ⟨rfl, rfl, rfl, rfl, rfl⟩

/-- Every instruction is a write of CMD or a window access; none of them stops. -/
theorem exec_command (c : Command) (ign : BitVec 12) (s : State) :
    exec (c.instr ign) s = .next (commandWrite (cmdWord c ign) s) := by
  cases c <;> rfl

theorem exec_rd (r : Reg) (d : Block) (s : State) : exec (.rd r d) s = .next (readIntoScratch r s) := rfl

theorem exec_wr (r : Reg) (d : Block) (s : State) : exec (.wr r d) s = .next (memWrite r d s) := rfl

/-- What a word on the port does: a write of the register and value that `writeOf` names, or a read. -/
theorem runWord_write {w : HostWord} {r : Reg} {v : Block} (h : writeOf w = some (r, v)) (s : State) :
    runWord w s = .next (memWrite r v s) := by
  cases w with
  | cmdw u =>
    simp only [writeOf, Option.some.injEq, Prod.mk.injEq] at h
    obtain ⟨rfl, rfl⟩ := h
    cases hd : decodeCmd u with
    | none =>
      simp only [runWord, decode, decodeCmdw, hd]
      rfl
    | some c =>
      have hw : cmdWord c (ignField u) = u := by
        rw [cmdWord, decodeOp_eq_some _ _ hd, append_fields]
      simp only [runWord, decode, decodeCmdw, hd, exec_command, hw]
      rfl
  | bus b =>
    simp only [writeOf] at h
    split at h
    · simp only [Option.some.injEq, Prod.mk.injEq] at h
      obtain ⟨rfl, rfl⟩ := h
      rename_i hb
      simp only [runWord, decode, decodeBus, hb, if_true, exec_wr]
    · cases h

theorem runWord_read {w : HostWord} (h : writeOf w = none) (s : State) :
    ∃ r, w.isRead = true ∧ runWord w s = .next (readIntoScratch r s) := by
  cases w with
  | cmdw u => cases h
  | bus b =>
    simp only [writeOf] at h
    split at h
    · cases h
    · rename_i hb
      refine ⟨Reg.ofIndex (b.extractLsb' 16 3), by simpa [HostWord.isRead] using hb, ?_⟩
      simp only [runWord, decode, decodeBus, hb]
      rfl

theorem isRead_eq_false_of_writeOf {w : HostWord} {p : Reg × Block} (h : writeOf w = some p) :
    w.isRead = false := by
  cases w with
  | cmdw u => rfl
  | bus b =>
    simp only [writeOf] at h
    split at h
    · rename_i hb; simp [HostWord.isRead, hb]
    · cases h

/-- The completion step is the completion of the command LOP selects, or the fault. -/
theorem complete_cases (s : State) :
    (∃ c, decodeOp s.lop = some c ∧ complete s = .next (completeCommand c s)) ∨
    (decodeOp s.lop = none ∧ complete s = .fault .illegalLatchedOpcode) := by
  unfold complete
  rw [decodeCmd_zext16]
  cases h : decodeOp s.lop <;> simp

theorem complete_next (h : complete s = .next t) : ∃ c, decodeOp s.lop = some c ∧ t = completeCommand c s := by
  rcases complete_cases s with ⟨c, hc, he⟩ | ⟨-, he⟩
  · exact ⟨c, hc, by rw [he] at h; injection h with h; exact h.symm⟩
  · rw [he] at h; cases h

/-- What the completion of a command changes: the four result registers, and the lifecycle. -/
theorem completeCommand_eq (c : Command) (s : State) :
    completeCommand c s = { s with
      dout := (commandOutputs c s.ldin s.lkey (resultRegs s)).1
      rk0 := (commandOutputs c s.ldin s.lkey (resultRegs s)).2.1
      rk1 := (commandOutputs c s.ldin s.lkey (resultRegs s)).2.2.1
      rk2 := (commandOutputs c s.ldin s.lkey (resultRegs s)).2.2.2
      phase := .idle, done := true, wait := 0 } := by
  cases c <;> rfl

theorem engineTurn_eq_true : engineTurn s = true ↔ s.phase = .busy ∧ (s.wait = 0 ∨ s.script = []) := by
  simp [engineTurn, State.busy, List.isEmpty_iff]

/-! ### The step, by what comes next -/

theorem step_reset (h : s.resetLine = true) : step s = .next (applyReset s) := by
  simp [step, takeStep, h]

theorem step_engine (h : s.resetLine = false) (he : engineTurn s = true) : step s = complete s := by
  simp [step, takeStep, h, he]

theorem step_host (h : s.resetLine = false) (he : engineTurn s = false) {a : HostAction} {rest : List HostAction}
    (hs : s.script = a :: rest) : step s = hostAct a (hostTakes rest s) := by
  simp [step, takeStep, h, he, hs]

theorem step_waits (h : s.resetLine = false) (he : engineTurn s = false) (hs : s.script = []) :
    step s = .next s := by
  simp [step, takeStep, h, he, hs]

/-- The rest of the script after a step of `poll`, and the state the step leaves. -/
theorem hostAct_poll (s : State) : hostAct .poll s = .next (pollAgain (readIntoScratch .status s)) := by
  have : runWord (.bus pollWord) s = .next (readIntoScratch .status s) := rfl
  simp only [hostAct, this]

theorem pollAgain_eq (s : State) :
    pollAgain s = { s with script := if s.h.getLsbD 0 then .poll :: s.script else s.script } := by
  unfold pollAgain
  split <;> simp_all

/-- Everything a step can do: the reset, a completion, a write of the host's, a read of the host's (a `poll` may come
again), the reset event raised, or nothing. -/
theorem step_cases (h : step s = .next t) :
    (s.resetLine = true ∧ t = applyReset s) ∨
    (s.resetLine = false ∧ engineTurn s = true ∧ complete s = .next t) ∨
    (s.resetLine = false ∧ engineTurn s = false ∧
      ((∃ a rest r v, s.script = a :: rest ∧ nextHostWrite s = some (r, v) ∧
          t = memWrite r v (hostTakes rest s)) ∨
       (∃ a rest rest' r, s.script = a :: rest ∧ nextHostWrite s = none ∧
          t = { readIntoScratch r (hostTakes rest s) with script := rest' }) ∨
       (∃ rest, s.script = .reset :: rest ∧ nextHostWrite s = none ∧
          t = { hostTakes rest s with resetLine := true }) ∨
       (s.script = [] ∧ nextHostWrite s = none ∧ t = s))) := by
  by_cases hr : s.resetLine = true
  · rw [step_reset hr] at h; injection h with h; exact .inl ⟨hr, h.symm⟩
  have hr : s.resetLine = false := by simpa using hr
  by_cases he : engineTurn s = true
  · rw [step_engine hr he] at h; exact .inr (.inl ⟨hr, he, h⟩)
  have he : engineTurn s = false := by simpa using he
  refine .inr (.inr ⟨hr, he, ?_⟩)
  have hw : ∀ {w : HostWord} {a rest}, s.script = a :: rest → pendingWord s = some w →
      runWord w (hostTakes rest s) = .next t →
      (∃ a rest r v, s.script = a :: rest ∧ nextHostWrite s = some (r, v) ∧ t = memWrite r v (hostTakes rest s)) ∨
      (∃ a rest rest' r, s.script = a :: rest ∧ nextHostWrite s = none ∧
          t = { readIntoScratch r (hostTakes rest s) with script := rest' }) := by
    intro w a rest hs hp hrun
    have hn : nextHostWrite s = writeOf w := by simp [nextHostWrite, hr, he, hp]
    cases hwo : writeOf w with
    | some p =>
      rw [runWord_write (r := p.1) (v := p.2) hwo] at hrun
      injection hrun with hrun
      exact .inl ⟨a, rest, p.1, p.2, hs, by rw [hn, hwo], hrun.symm⟩
    | none =>
      obtain ⟨r, -, hrd⟩ := runWord_read hwo (hostTakes rest s)
      rw [hrd] at hrun
      injection hrun with hrun
      exact .inr ⟨a, rest, rest, r, hs, by rw [hn, hwo], by rw [← hrun]; rfl⟩
  cases hs : s.script with
  | nil =>
    rw [step_waits hr he hs] at h
    injection h with h
    exact .inr (.inr (.inr ⟨rfl, by simp [nextHostWrite, hr, he, pendingWord, hs], h.symm⟩))
  | cons a rest =>
    rw [step_host hr he hs] at h
    cases a with
    | word w =>
      rcases hw hs (by simp [pendingWord, hs]) h with h | h
      · exact .inl (by simpa [hs] using h)
      · exact .inr (.inl (by simpa [hs] using h))
    | wrh reg =>
      simp only [hostAct] at h
      split at h
      · rcases hw hs (by simp [pendingWord, hs]) h with h | h
        · exact .inl (by simpa [hs] using h)
        · exact .inr (.inl (by simpa [hs] using h))
      · cases h
    | poll =>
      rw [hostAct_poll] at h
      injection h with h
      rw [pollAgain_eq] at h
      refine .inr (.inl ⟨.poll, rest, _, .status, rfl, ?_, h.symm⟩)
      simp only [nextHostWrite, hr, he, pendingWord, hs]
      rfl
    | reset =>
      simp only [hostAct] at h
      injection h with h
      exact .inr (.inr (.inl ⟨rest, rfl, by simp [nextHostWrite, hr, he, pendingWord, hs], h.symm⟩))

end Sys2Proof.Machine
end

