-- ==== Sys2Proof/Laws/PerInstr.lean ====
section
/-! SUPPORT. The laws stated for every instruction, one lemma per constructor: the word of an instruction has the format
and the fixed bits of its row in spec/opcode_table.json. -/

namespace Sys2Proof.Laws

open Sys2Proof.Machine

/-- The word the encoder writes fits the instruction's row of the opcode table. -/
def EncodedWordFitsItsRow.Statement (i : Instr) : Prop := (tableRow i).fits (encode i) = true

/-- The low four bits of a command word are its opcode, as the table's mask reads them. -/
theorem mask_cmdWord (c : Command) (ign : BitVec 12) : (cmdWord c ign).toNat &&& 0x000F = c.opcode.toNat := by
  have h : (opField (cmdWord c ign)).toNat = (cmdWord c ign).toNat % 2 ^ 4 := by
    simp [opField, BitVec.extractLsb'_toNat]
  rw [Nat.and_two_pow_sub_one_eq_mod _ 4, ← h, opField_cmdWord]

/-- Bit 19 of a transaction word is W, as the table's mask reads it. -/
theorem mask_busWord (w : Bool) (r : Reg) (d : Block) :
    (busWord w r d).toNat &&& 0x80000 = if w then 0x80000 else 0 := by
  have h := busWord_write w r d
  rw [BitVec.getLsbD] at h
  rw [show (0x80000 : Nat) = 2 ^ 19 by norm_num, Nat.and_two_pow, h]
  cases w <;> rfl

theorem EncodedWordFitsItsRow.enc (ign : BitVec 12) : EncodedWordFitsItsRow.Statement (.enc ign) := by
  simp [Statement, encode, tableRow, TableRow.fits, mask_cmdWord, Command.opcode]

theorem EncodedWordFitsItsRow.dec (ign : BitVec 12) : EncodedWordFitsItsRow.Statement (.dec ign) := by
  simp [Statement, encode, tableRow, TableRow.fits, mask_cmdWord, Command.opcode]

theorem EncodedWordFitsItsRow.keyexp (ign : BitVec 12) : EncodedWordFitsItsRow.Statement (.keyexp ign) := by
  simp [Statement, encode, tableRow, TableRow.fits, mask_cmdWord, Command.opcode]

theorem EncodedWordFitsItsRow.gfmul (ign : BitVec 12) : EncodedWordFitsItsRow.Statement (.gfmul ign) := by
  simp [Statement, encode, tableRow, TableRow.fits, mask_cmdWord, Command.opcode]

theorem EncodedWordFitsItsRow.sbox (ign : BitVec 12) : EncodedWordFitsItsRow.Statement (.sbox ign) := by
  simp [Statement, encode, tableRow, TableRow.fits, mask_cmdWord, Command.opcode]

theorem EncodedWordFitsItsRow.sboxinv (ign : BitVec 12) : EncodedWordFitsItsRow.Statement (.sboxinv ign) := by
  simp [Statement, encode, tableRow, TableRow.fits, mask_cmdWord, Command.opcode]

theorem EncodedWordFitsItsRow.rd (reg : Reg) (data : Block) : EncodedWordFitsItsRow.Statement (.rd reg data) := by
  simp [Statement, encode, tableRow, TableRow.fits, mask_busWord]

theorem EncodedWordFitsItsRow.wr (reg : Reg) (data : Block) : EncodedWordFitsItsRow.Statement (.wr reg data) := by
  simp [Statement, encode, tableRow, TableRow.fits, mask_busWord]

end Sys2Proof.Laws
end

