-- ==== Sys2Proof/Tests/Slice0.lean ====
section
/-! SUPPORT. The model's own tests. Expected values are the spec's: the vectors of 95_test_vectors.md (section named at
each), the example words of 30_encoding.md R70, the tables of the rules. The last part shows, for every obligation with
hypotheses, a concrete state and operands that meet them. -/

namespace Sys2Proof.Tests

open Sys2Proof Sys2Proof.Machine

/-- A field of the next state, if there is one. -/
def fieldOf {α : Type} (f : State → α) : Host.Outcome State Fault Refusal → Option α
  | .next s => some (f s)
  | .fault _ => none
  | .refused _ => none

/-- The operands of the spec's worked example (R152, R166), idle. -/
def idleState : State := { State.reset with din := 0x6F6B, key := 0xA73B }

/-- A command with opcode `op` in flight on given operands, two host steps before its completion. -/
def busyState (op : Nibble) (din key : Block) (script : List HostAction) : State :=
  { State.reset with phase := .busy, lop := op, ldin := din, lkey := key, wait := 2, script := script }

/-! ### WellFormed: each check passes the good term and refuses the ill-formed one -/

theorem test_default_sbox_is_a_permutation : sboxFwd.wf = true := by decide
theorem test_constant_table_refused : SboxTable.wf (fun _ _ => 0) = false := by decide
theorem test_table_with_one_repeat_refused :
    SboxTable.wf (fun r c => if r = 0 ∧ c = 0 then 0x4 else sboxFwd r c) = false := by decide
theorem test_script_rd_then_wrh : scriptWf false [.word (.bus 0x40000), .wrh .din] = true := by decide
theorem test_script_wrh_first_refused : scriptWf false [.wrh .din] = false := by decide
theorem test_script_write_gives_no_h : scriptWf false [.word (.bus 0x80000), .wrh .din] = false := by decide
theorem test_script_wrh_after_reset_only_refused : scriptWf false [.reset, .wrh .din] = false := by decide
theorem test_canonical_read : Instr.canonical (.rd .dout 0) = true := by decide
theorem test_read_with_data_not_canonical : Instr.canonical (.rd .dout 1) = false := by decide

/-! ### Decoding: words written out bit by bit (R61, R62, R67, R70) -/

theorem test_decode_enc : decode (.cmdw 0b0000000000000001#16) = .ok (.enc 0) := rfl
theorem test_decode_dec : decode (.cmdw 0b0000000000000010#16) = .ok (.dec 0) := rfl
theorem test_decode_keyexp : decode (.cmdw 0b0000000000000011#16) = .ok (.keyexp 0) := rfl
theorem test_decode_gfmul : decode (.cmdw 0b0000000000000100#16) = .ok (.gfmul 0) := rfl
theorem test_decode_sbox : decode (.cmdw 0b1111111111110101#16) = .ok (.sbox 0xFFF) := rfl
theorem test_decode_sboxinv : decode (.cmdw 0b0000000000010110#16) = .ok (.sboxinv 1) := rfl
theorem test_decode_illegal_zero : decode (.cmdw 0b0000000000000000#16) = .error (.illegalOpcode 0) := rfl
theorem test_decode_illegal_seven : decode (.cmdw 0b0000000000000111#16) = .error (.illegalOpcode 7) := rfl
theorem test_decode_illegal_ignored_bits : decode (.cmdw 0b0000000000010000#16) = .error (.illegalOpcode 0x10) := rfl
theorem test_decode_wr_key : decode (.bus 0b1_001_1010011100111011#20) = .ok (.wr .key 0xA73B) := rfl
theorem test_decode_wr_din : decode (.bus 0b1_000_0110111101101011#20) = .ok (.wr .din 0x6F6B) := rfl
theorem test_decode_rd_status : decode (.bus 0b0_011_0000000000000000#20) = .ok (.rd .status 0) := rfl
theorem test_decode_rd_rk2 : decode (.bus 0b0_111_0000000000000000#20) = .ok (.rd .rk2 0) := rfl
theorem test_encode_examples :
    encode (.wr .key 0xA73B) = .bus 0x9A73B ∧ encode (.wr .din 0x6F6B) = .bus 0x86F6B ∧
    encode (.wr .cmd 0x0001) = .bus 0xA0001 ∧ encode (.rd .status 0) = .bus 0x30000 ∧
    encode (.wr .status 0x000C) = .bus 0xB000C ∧ encode (.rd .rk2 0) = .bus 0x70000 := by decide
theorem test_table_rows_disjoint :
    [tableRow (.enc 0), tableRow (.dec 0), tableRow (.keyexp 0), tableRow (.gfmul 0), tableRow (.sbox 0),
      tableRow (.sboxinv 0), tableRow (.rd .din 0), tableRow (.wr .din 0)].Pairwise
      (fun a b => a.busFormat ≠ b.busFormat ∨ (a.mask = b.mask ∧ a.pattern ≠ b.pattern)) := by decide
theorem test_table_words :
    decodeTableWord 16 0x0001 = some (.enc 0) ∧ decodeTableWord 16 0x0006 = some (.sboxinv 0) ∧
    decodeTableWord 16 0x0007 = none ∧ decodeTableWord 24 0x00000 = some (.rd .din 0) ∧
    decodeTableWord 24 0x80000 = some (.wr .din 0) ∧ decodeTableWord 24 0x100000 = none := by decide

/-! ### Host scripts as text (R68, R69, R70) -/

theorem test_assemble_wr : assemble ["wr KEY, 0xA73B ; the key"] = some [.word (.bus 0x9A73B)] := by decide
theorem test_assemble_by_index : assemble ["rd 7", "  ; nothing"] = some [.word (.bus 0x70000)] := by decide
theorem test_hex_digits_of_both_cases : parseNumber "0xbF9".toList = some 0x0BF9 ∧ parseNumber "0x0G".toList = none := by
  decide
theorem test_assemble_run : assemble ["run ENC"] = some [.word (.bus 0xA0001), .poll] := by decide
theorem test_assemble_mv : assemble ["mv DIN, DOUT"] = some [.word (.bus 0x40000), .wrh .din] := by decide
theorem test_assemble_mnemonic_for_cmd_only : assemble ["wr DIN, ENC"] = none := by decide
theorem test_wrh_word : wrhWord .din 0x09BE = 0x809BE := by decide

/-! ### The cipher's functions (95_test_vectors.md 2.1 to 2.6) -/

theorem test_gfmul_vectors :
    gfmul 0x4 0x7 = 0xF ∧ gfmul 0xF 0xF = 0xA ∧ gfmul 0x2 0x9 = 0x1 ∧ gfmul 0x4 0x4 = 0x3 ∧ gfmul 0x8 0x2 = 0x3 ∧
    gfmul 0x3 0x7 = 0x9 ∧ gfmul 0x9 0x9 = 0xD ∧ gfmul 0xE 0xD = 0xA ∧ gfmul 0x6 0xC = 0xE := by decide
/-- Row 0xB of the table of R102. -/
theorem test_gfmul_row_b :
    (List.range 16).map (fun y => gfmul 0xB (BitVec.ofNat 4 y)) =
      [0x0, 0xB, 0x5, 0xE, 0xA, 0x1, 0xF, 0x4, 0x7, 0xC, 0x2, 0x9, 0xD, 0x6, 0x8, 0x3] := by decide
theorem test_state_layout : blockToState 0x1234 = ⟨1, 2, 3, 4⟩ ∧ stateToBlock ⟨1, 2, 3, 4⟩ = 0x1234 := by decide
/-- R114: the inverse table. -/
theorem test_sbox_inv_table :
    sboxInv.entries = [0xA, 0x5, 0x9, 0xB, 0x1, 0x7, 0x8, 0xF, 0x6, 0x0, 0x2, 0x3, 0xC, 0x4, 0xD, 0xE] := by decide
theorem test_sub_word : subWord sboxFwd 0xB3 = 0x3B ∧ subWord sboxFwd 0x72 = 0x5A := by decide
theorem test_linear_layers :
    stateToBlock (shiftRows (blockToState 0xABCD)) = 0xABDC ∧
    stateToBlock (mixColumns (blockToState 0x1234)) = 0xD17C ∧
    stateToBlock (mixColumnsInverse (blockToState 0xABCD)) = 0xE51A ∧
    stateToBlock (mixColumns (blockToState 0x0010)) = 0x4010 ∧
    stateToBlock (addRoundKey (blockToState 0x6F6B) 0xA73B) = 0xC850 := by decide
theorem test_rotate_word : rotateWord 0x3B = 0xB3 := by decide
theorem test_key_expansion_a73b : keyExpansion sboxFwd 0xA73B = (0xA73B, 0x1C27, 0x7651) := by decide
theorem test_key_expansion_0001 : keyExpansion sboxFwd 0x0001 = (0x0001, 0xC9C8, 0x955D) := by decide
theorem test_encrypt_vectors :
    encrypt sboxFwd 0x6F6B 0xA73B = 0x09BE ∧ encrypt sboxFwd 0xABCD 0x2D55 = 0x2FA1 ∧
    encrypt sboxFwd 0x0000 0x0000 = 0x07B4 ∧ encrypt sboxFwd 0xFFFF 0xFFFF = 0x5455 := by decide
theorem test_decrypt_vectors :
    decrypt sboxFwd 0x2892 0x4AF5 = 0xD728 ∧ decrypt sboxFwd 0x0820 0x5678 = 0x1234 := by decide

/-! ### One step of the machine: the commands (95_test_vectors.md 2.1, 2.3, 2.5 to 2.7) -/

theorem test_enc_accepts : fieldOf (fun s => (s.lop, s.ldin, s.lkey, s.phase, s.done)) (exec (.enc 0) idleState) =
    some (0x1, 0x6F6B, 0xA73B, .busy, false) := by decide
theorem test_enc_completes : fieldOf (fun s => (s.dout, s.phase, s.done, s.rk0)) (step { busyState 0x1 0x6F6B 0xA73B [] with wait := 0 }) =
    some (0x09BE, .idle, true, 0) := by decide
theorem test_dec_completes : fieldOf State.dout (complete (busyState 0x2 0x09BE 0xA73B [])) = some 0x6F6B := by decide
theorem test_keyexp_completes : fieldOf (fun s => (s.rk0, s.rk1, s.rk2, s.dout)) (complete (busyState 0x3 0 0x4AF5 [])) =
    some (0x4AF5, 0xDD28, 0x87AF, 0) := by decide
theorem test_gfmul_completes : fieldOf State.dout (complete (busyState 0x4 0xAB47 0xFFFF [])) = some 0x000F := by decide
theorem test_sbox_completes : fieldOf State.dout (complete (busyState 0x5 0x0047 0 [])) = some 0x99D5 := by decide
theorem test_sboxinv_completes : fieldOf State.dout (complete (busyState 0x6 0x89AB 0 [])) = some 0x6023 := by decide
/-- V9: bits 15:4 are ignored. -/
theorem test_ignored_bits : fieldOf State.lop (exec (.wr .cmd 0x0011) State.reset) = some 0x1 := by decide

/-! ### One step of the machine: the window and the errors (95_test_vectors.md 2.7) -/

/-- V1. -/
theorem test_reset_reads_zero : ∀ r ∈ allRegs, memRead r State.reset = 0 := by decide
/-- V2, V3: an illegal opcode sets ILL alone. -/
theorem test_illegal_opcode : fieldOf (fun s => (memRead .status s, memRead .cmd s)) (exec (.wr .cmd 0x0007) State.reset) =
    some (0x0004, 0x0000) := by decide
theorem test_zero_opcode_word : fieldOf (memRead .status) (step { State.reset with script := [.word (.cmdw 0)] }) =
    some 0x0004 := by decide
/-- V4, V5. -/
theorem test_status_clear : fieldOf State.ill (exec (.wr .status 0x0004) { State.reset with ill := true }) = some false := by
  decide
theorem test_status_low_bits_ignored :
    fieldOf (memRead .status) (exec (.wr .status 0x0003) { State.reset with ill := true }) = some 0x0004 := by decide
/-- V6. -/
theorem test_read_only_register : exec (.wr .dout 0x1234) State.reset = .next State.reset := rfl
/-- V8, V11: while BUSY only OVR is set. -/
theorem test_command_while_busy :
    fieldOf (fun s => (memRead .status s, memRead .cmd s)) (exec (.wr .cmd 0x000F) (busyState 0x1 0 0 [])) =
      some (0x0009, 0x0001) := by decide
/-- V7: right after acceptance STATUS reads BUSY. -/
theorem test_busy_at_once : fieldOf (memRead .status) (exec (.enc 0) State.reset) = some 0x0001 := by decide
/-- V12: reset while BUSY. -/
theorem test_reset_abandons :
    fieldOf (fun s => (memRead .status s, engineTurn s)) (step { busyState 0x1 0 0 [] with resetLine := true }) =
      some (0x0000, false) := by decide
theorem test_rd_key : fieldOf State.h (exec (.rd .key 0) idleState) = some 0xA73B := by decide
theorem test_poll_stays_while_busy :
    fieldOf (fun s => (s.script, s.h, s.wait)) (step (busyState 0x1 0 0 [.poll])) = some ([.poll], 0x0001, 1) := by decide
theorem test_poll_ends_when_idle :
    fieldOf (fun s => (s.script, s.h)) (step { State.reset with done := true, script := [.poll] }) =
      some ([], 0x0002) := by decide
theorem test_wrh : fieldOf State.din (step { State.reset with dout := 7, h := 0x09BE, hDefined := true, script := [.wrh .din] }) =
    some 0x09BE := by decide
theorem test_fetch_word_runs :
    fieldOf (fun s => (s.din, s.script)) (step (State.reset.withFetchWord 24 0x86F6B)) = some (0x6F6B, []) := by decide
theorem test_fetch_word_runs_a_command :
    fieldOf (fun s => (s.lop, s.phase)) (step (State.reset.withFetchWord 16 0x0003)) = some (0x3, .busy) := by decide

/-! ### Witnesses: the hypotheses of each obligation are met -/

theorem witness_EncodeOfDecodeIsTheWord : decode (.bus 0x9A73B) = .ok (.wr .key 0xA73B) := rfl
theorem witness_DecodedWordFitsExactlyItsTableRow : decode (.cmdw 0xFFF5) = .ok (.sbox 0xFFF) := rfl
theorem witness_TransactionWordPerformsItsAccess :
    (Reg.index .key = BitVec.extractLsb' 16 3 0x9A73B#20 ∧ BitVec.getLsbD 0x9A73B#20 19 = true) ∧
    (Reg.index .rk2 = BitVec.extractLsb' 16 3 0x70000#20 ∧ BitVec.getLsbD 0x70000#20 19 = false) := by decide
theorem witness_StepRunsTheDecodedInstruction :
    ((busyState 0x1 0 0 [.word (.bus 0x30000)]).resetLine = false ∧
      engineTurn (busyState 0x1 0 0 [.word (.bus 0x30000)]) = false ∧
      (busyState 0x1 0 0 [.word (.bus 0x30000)]).script = .word (.bus 0x30000) :: []) ∧
    decode (.bus 0x30000) = .ok (.rd .status 0) ∧ decodeTableWord 24 0x30000 = some (.rd .status 0) :=
  ⟨by decide, rfl, by decide⟩
theorem witness_ReadReturnsTheRegister : idleState.phase = .idle := by decide
theorem witness_BusyResultReadIsAFreshDraw :
    (∃ t, exec (.rd .dout 0) (busyState 0x1 0 0 []) = .next t) ∧ (busyState 0x1 0 0 []).phase = .busy ∧
    (∃ t, exec (.rd .dout 0) idleState = .next t) ∧ idleState.phase = .idle :=
  ⟨⟨_, rfl⟩, by decide, ⟨_, rfl⟩, by decide⟩
theorem witness_CmdReadsTheLastAcceptedOpcode :
    (busyState 0x1 0 0 []).phase = .busy ∧ decodeCmd 0x0007 = none ∧ idleState.phase = .idle ∧
      decodeCmd 0x0006 ≠ none := by decide
theorem witness_WriteLeavesOtherRegistersAlone :
    Reg.din ≠ .cmd ∧ Reg.key ≠ .din ∧ ∃ t, exec (.wr .din 0xFFFF) idleState = .next t :=
  ⟨by decide, by decide, _, rfl⟩
theorem witness_WritesButCmdAreIdempotent :
    (Reg.status ≠ .cmd ∧ ∃ t, exec (.wr .status 0x000C) { idleState with ill := true } = .next t) ∧
    (idleState.phase = .idle ∧ decodeCmd 0x0001 ≠ none ∧ ∃ t, exec (.wr .cmd 0x0001) idleState = .next t) :=
  ⟨⟨by decide, _, rfl⟩, by decide, by decide, _, rfl⟩
theorem witness_WindowHoldsTheEightRegisters : windowReg Config.base = some .din ∧ windowReg (Config.base + 7) = some .rk2 := by
  constructor
  · rw [windowReg, if_pos (by omega), Nat.sub_self]; rfl
  · rw [windowReg, if_pos (by omega), Nat.add_sub_cancel_left]; rfl
theorem witness_CommandWriteRefusesOrAccepts :
    (busyState 0x1 0 0 []).phase = .busy ∧ (idleState.phase = .idle ∧ decodeCmd 0x0007 = none) ∧
    (idleState.phase = .idle ∧ decodeCmd 0x0001 ≠ none) := by decide
theorem witness_CommandWhileBusySetsOnlyOvr : (busyState 0x6 0 0 []).phase = .busy := by decide
theorem witness_ReservedOpcodeSetsOneErrorBit :
    BitVec.extractLsb' 0 4 0x0010#16 = 0x0#4 ∧ 0x7#4 ≤ BitVec.extractLsb' 0 4 0x0007#16 ∧
    0x7#4 ≤ BitVec.extractLsb' 0 4 0x000F#16 ∧ idleState.phase = .idle ∧ (busyState 0x1 0 0 []).phase = .busy := by decide
/-- For the six statements of a command's own result, and for `AcceptanceIsVisibleInStatusAtOnce` and
`EncThenDecRestoresTheBlock`. -/
theorem witness_command_while_idle : idleState.phase = .idle := by decide
theorem witness_CompletionCommitsTheLatchedCommand :
    ∀ c ∈ allCommands, decodeCmd (zext16 (busyState c.opcode 0x6F6B 0xA73B []).lop) = some c := by decide
theorem witness_CompletionDependsOnTheLatchesAlone :
    (∃ t, complete (busyState 0x1 3 4 []) = .next t) ∧
    (∃ t, complete { busyState 0x1 3 4 [] with din := 9, rk0 := 9 } = .next t) ∧
    (∃ t, complete (busyState 0x3 3 4 []) = .next t) ∧
    (∃ t, complete { busyState 0x3 3 4 [] with key := 9, dout := 9 } = .next t) :=
  ⟨⟨_, rfl⟩, ⟨_, rfl⟩, ⟨_, rfl⟩, ⟨_, rfl⟩⟩
theorem witness_OperandWritesDoNotAffectTheCommandInFlight :
    (busyState 0x1 3 4 []).phase = .busy ∧ ∃ t, complete (busyState 0x1 3 4 []) = .next t := ⟨by decide, _, rfl⟩
/-- A STATUS write that clears both bits. -/
theorem witness_ErrorBitsAreSticky :
    ∃ s t : State, step s = .next t ∧ s.resetLine = false ∧ s.ill = true ∧ t.ill = false ∧ s.ovr = true ∧ t.ovr = false :=
  ⟨{ State.reset with ill := true, ovr := true, script := [.word (.bus 0xB000C)] }, _, rfl, by decide, by decide, by decide,
    by decide, by decide⟩
/-- A reserved opcode while IDLE, and a command while BUSY. -/
theorem witness_ErrorsComeFromCmdWritesOnly :
    (∃ s t : State, step s = .next t ∧ s.ill = false ∧ t.ill = true) ∧
    (∃ s t : State, step s = .next t ∧ s.ovr = false ∧ t.ovr = true) :=
  ⟨⟨{ State.reset with script := [.word (.bus 0xA0000)] }, _, rfl, by decide, by decide⟩,
    ⟨busyState 0x1 0 0 [.word (.bus 0xA0002)], _, rfl, by decide, by decide⟩⟩
theorem witness_OnlyAcceptanceStartsACommand :
    ∃ s t : State, step s = .next t ∧ s.resetLine = false ∧ s.phase = .idle ∧ t.phase = .busy ∧ t.lop ≠ s.lop ∧
      t.ldin ≠ s.ldin ∧ t.lkey ≠ s.lkey :=
  ⟨{ idleState with script := [.word (.bus 0xA0001)] }, _, rfl, by decide, by decide, by decide, by decide, by decide,
    by decide⟩
theorem witness_OnlyTheHostWritesOperandRegisters :
    (∃ s t : State, step s = .next t ∧ s.resetLine = false ∧ t.din ≠ s.din) ∧
    (∃ s t : State, step s = .next t ∧ s.resetLine = false ∧ t.key ≠ s.key) :=
  ⟨⟨{ State.reset with script := [.word (.bus 0x80001)] }, _, rfl, by decide, by decide⟩,
    ⟨{ State.reset with script := [.word (.bus 0x90001)] }, _, rfl, by decide, by decide⟩⟩
theorem witness_OnlyCompletionWritesResultRegisters :
    (∃ s t : State, step s = .next t ∧ s.resetLine = false ∧ t.dout ≠ s.dout) ∧
    (∃ s t : State, step s = .next t ∧ s.resetLine = false ∧ t.rk0 ≠ s.rk0 ∧ t.rk1 ≠ s.rk1 ∧ t.rk2 ≠ s.rk2) :=
  ⟨⟨busyState 0x1 0 0 [], _, rfl, by decide, by decide⟩,
    ⟨busyState 0x3 0 0xA73B [], _, rfl, by decide, by decide, by decide, by decide⟩⟩
theorem witness_ResultsStayWhileIdle :
    ∃ s t : State, s.phase = .idle ∧ s.resetLine = false ∧ step s = .next t :=
  ⟨{ idleState with script := [.word (.bus 0x40000)] }, _, by decide, by decide, rfl⟩
theorem witness_IdleBlockWaits : idleState.phase = .idle ∧ idleState.script = [] ∧ idleState.resetLine = false := by decide
theorem witness_ResetClearsTheEngineAndAbandonsTheCommand :
    State.resetLine { busyState 0x1 3 4 [.poll] with resetLine := true } = true := by decide
theorem witness_ResetForgetsACompletion : ∃ t, complete (busyState 0x1 3 4 []) = .next t := ⟨_, rfl⟩
theorem witness_PollRepeatsWhileBusy :
    (State.resetLine (busyState 0x1 0 0 [.poll]) = false ∧ engineTurn (busyState 0x1 0 0 [.poll]) = false) ∧
    (State.resetLine { idleState with script := [.poll] } = false ∧ engineTurn { idleState with script := [.poll] } = false) := by
  decide
theorem witness_WrhWritesTheScratchValue :
    engineTurn { State.reset with hDefined := true, script := [.wrh .cmd] } = false ∧
    State.resetLine { State.reset with hDefined := true, script := [.wrh .cmd] } = false ∧
    engineTurn { State.reset with script := [.wrh .cmd] } = false ∧ State.reset.hDefined = false := by decide
/-- For the four statements about every permutation table. -/
theorem witness_permutation_table : sboxFwd.wf = true ∧ SboxTable.wf (fun row col => row ++ col) = true := by decide
theorem witness_StepKeepsTheLifecycle :
    LifecycleInv (busyState 0x1 3 4 [.poll]) ∧ ∃ t, step (busyState 0x1 3 4 [.poll]) = .next t :=
  ⟨⟨fun _ => by decide, fun h => absurd h (by decide), .inr (by decide)⟩, _, rfl⟩
theorem witness_StepKeepsTheRoundKeysWhole :
    RoundKeysInv (busyState 0x3 3 0xA73B []) ∧ ∃ t, step (busyState 0x3 3 0xA73B []) = .next t :=
  ⟨.inl (by decide), _, rfl⟩
theorem witness_ResetStateIsSafe : scriptWf false [.word (.bus 0x40000), .wrh .din, .poll, .reset] = true := by decide
/-- For `SafeStatesNeverStop` and `AcceptedCommandCompletes`. -/
theorem witness_AcceptedCommandCompletes :
    SafeState (busyState 0x1 3 4 [.poll, .wrh .din]) ∧ (busyState 0x1 3 4 [.poll, .wrh .din]).phase = .busy ∧
    (busyState 0x1 3 4 [.poll, .wrh .din]).resetLine = false ∧
    HostAction.reset ∉ (busyState 0x1 3 4 [.poll, .wrh .din]).script :=
  ⟨⟨⟨fun _ => by decide, fun h => absurd h (by decide), .inr (by decide)⟩, by decide⟩, by decide, by decide, by decide⟩
theorem witness_RunLineEndsWithTheResult :
    State.phase { idleState with script := expandLine (.run (cmdWord .enc 0)) ++ [.word (.bus 0x40000)] } = .idle ∧
    State.resetLine { idleState with script := expandLine (.run (cmdWord .enc 0)) ++ [.word (.bus 0x40000)] } = false ∧
    State.script { idleState with script := expandLine (.run (cmdWord .enc 0)) ++ [.word (.bus 0x40000)] } =
      expandLine (.run (cmdWord .enc 0)) ++ [.word (.bus 0x40000)] := by decide

end Sys2Proof.Tests
end

/-! PROOFS. The family 10_state.md: what the registers read, which step may change which register, and the invariant of the
round-key registers. First the rules of the operations and of the step, then the obligations. -/

namespace Sys2Proof.Machine

variable {s t : State}

/-! ### Reads of STATUS and CMD -/

/-- R24, bit by bit: BUSY, DONE, ILL, OVR from bit 0 up, and zeros above. -/
theorem getLsbD_statusWord (s : State) (k : Nat) :
    (statusWord s).getLsbD k =
      if k = 0 then s.busy else if k = 1 then s.done else if k = 2 then s.ill else if k = 3 then s.ovr else false := by
  unfold statusWord
  simp only [BitVec.getLsbD_append, BitVec.getLsbD_ofBool, BitVec.getLsbD_zero]
  rcases k with _ | _ | _ | _ | k <;> simp

@[simp] theorem memRead_status (s : State) : memRead .status s = statusWord s := rfl

@[simp] theorem memRead_cmd (s : State) : memRead .cmd s = zext16 s.lop := rfl

theorem getLsbD_zext16_of_le (n : Nibble) {k : Nat} (hk : 4 ≤ k) : (zext16 n).getLsbD k = false := by
  simp only [zext16, BitVec.getLsbD_setWidth, BitVec.getLsbD_of_ge n k hk, Bool.and_false]

/-- The opcode an accepted word latches, read back: bits 3:0 of the word. -/
theorem zext16_opField (v : Block) : zext16 (opField v) = v &&& 0x000F#16 := by
  apply BitVec.eq_of_toNat_eq
  have hmask : v.toNat &&& 15 = v.toNat % 16 := Nat.and_two_pow_sub_one_eq_mod v.toNat 4
  have hzext : (zext16 (opField v)).toNat = v.toNat % 16 % 65536 := by simp [zext16, opField]
  have hand : (v &&& 0x000F#16).toNat = v.toNat &&& 15 := BitVec.toNat_and v 0x000F#16
  omega

/-! ### Writes of the window -/

/-- R25 as two choices: a 1 at the bit clears, a 0 leaves. -/
theorem statusWrite_eq (v : Block) (s : State) :
    statusWrite v s = { s with
      ill := if v.getLsbD 2 = true then false else s.ill
      ovr := if v.getLsbD 3 = true then false else s.ovr } := by
  unfold statusWrite
  cases v.getLsbD 2 <;> cases v.getLsbD 3 <;> simp

theorem memWrite_din (r : Reg) (v : Block) (s : State) :
    (memWrite r v s).din = if r = .din then v else s.din := by
  cases r with
  | cmd => exact (commandWrite_frame v s).1
  | din | key | status | dout | rk0 | rk1 | rk2 => rfl

theorem memWrite_key (r : Reg) (v : Block) (s : State) :
    (memWrite r v s).key = if r = .key then v else s.key := by
  cases r with
  | cmd => exact (commandWrite_frame v s).2.1
  | din | key | status | dout | rk0 | rk1 | rk2 => rfl

/-- Only the window's CMD register reaches the lifecycle and its latches (R46). -/
theorem memWrite_latches_of_ne_cmd {r : Reg} (hr : r ≠ .cmd) (v : Block) (s : State) :
    (memWrite r v s).phase = s.phase ∧ (memWrite r v s).lop = s.lop ∧
    (memWrite r v s).ldin = s.ldin ∧ (memWrite r v s).lkey = s.lkey := by
  rcases memWrite_cases r v s with ⟨-, he⟩ | ⟨-, he⟩ | ⟨rfl, -⟩ | ⟨-, he⟩ | he
  · simp [he]
  · simp [he]
  · exact absurd rfl hr
  · simp [he]
  · simp [he]

/-! ### What a completion commits (R82, R66) -/

/-- LOP selects KEYEXP exactly where it holds KEYEXP's opcode. -/
theorem opcode_eq_three_iff {op : Nibble} {c : Command} (h : decodeOp op = some c) : op = 0x3 ↔ c = .keyexp := by
  rw [← decodeOp_eq_some op c h]
  cases c <;> decide

theorem commandOutputs_keyexp (din key : Block) (old : Block × Block × Block × Block) :
    commandOutputs .keyexp din key old = (old.1, keyExpansion sboxFwd key) := rfl

/-- A command that is not KEYEXP leaves RK0..RK2. -/
theorem commandOutputs_snd {c : Command} (hc : c ≠ .keyexp) (din key : Block) (old : Block × Block × Block × Block) :
    (commandOutputs c din key old).2 = old.2 := by
  cases c with
  | keyexp => exact absurd rfl hc
  | enc | dec | gfmul | sbox | sboxinv => rfl

/-- R32: what a command other than KEYEXP puts into DOUT does not depend on the result registers before. -/
theorem commandOutputs_fst_congr {c : Command} (hc : c ≠ .keyexp) (din key : Block)
    (old old' : Block × Block × Block × Block) :
    (commandOutputs c din key old).1 = (commandOutputs c din key old').1 := by
  cases c with
  | keyexp => exact absurd rfl hc
  | enc | dec | gfmul | sbox | sboxinv => rfl

theorem resultRegs_snd_ne_iff :
    (resultRegs t).2 ≠ (resultRegs s).2 ↔ t.rk0 ≠ s.rk0 ∨ t.rk1 ≠ s.rk1 ∨ t.rk2 ≠ s.rk2 := by
  simp only [resultRegs, ne_eq, Prod.mk.injEq, not_and_or]

theorem completeCommand_resultRegs (c : Command) (s : State) :
    resultRegs (completeCommand c s) = commandOutputs c s.ldin s.lkey (resultRegs s) := by
  rw [completeCommand_eq]; rfl

@[simp] theorem completeCommand_din (c : Command) (s : State) : (completeCommand c s).din = s.din := by
  rw [completeCommand_eq]

@[simp] theorem completeCommand_key (c : Command) (s : State) : (completeCommand c s).key = s.key := by
  rw [completeCommand_eq]

@[simp] theorem completeCommand_phase (c : Command) (s : State) : (completeCommand c s).phase = .idle := by
  rw [completeCommand_eq]

@[simp] theorem completeCommand_lop (c : Command) (s : State) : (completeCommand c s).lop = s.lop := by
  rw [completeCommand_eq]

@[simp] theorem completeCommand_ldin (c : Command) (s : State) : (completeCommand c s).ldin = s.ldin := by
  rw [completeCommand_eq]

@[simp] theorem completeCommand_lkey (c : Command) (s : State) : (completeCommand c s).lkey = s.lkey := by
  rw [completeCommand_eq]

/-! ### Steps that are not the reset -/

/-- Two states with the same engine: the registers of the window and the hidden state of R30 agree, whatever stands on the
host's side. -/
structure SameEngine (s t : State) : Prop where
  din : t.din = s.din
  key : t.key = s.key
  results : resultRegs t = resultRegs s
  done : t.done = s.done
  ill : t.ill = s.ill
  ovr : t.ovr = s.ovr
  phase : t.phase = s.phase
  lop : t.lop = s.lop
  ldin : t.ldin = s.ldin
  lkey : t.lkey = s.lkey

/-- A step that is not the reset, as the engine sees it: the completion of the command in LOP, the host's write, or
nothing. -/
theorem step_cases_engine (h : step s = .next t) (hr : s.resetLine = false) :
    (engineTurn s = true ∧ ∃ c, decodeOp s.lop = some c ∧ t = completeCommand c s) ∨
    (engineTurn s = false ∧
      ∃ r v rest, nextHostWrite s = some (r, v) ∧ t = memWrite r v (hostTakes rest s)) ∨
    (engineTurn s = false ∧ nextHostWrite s = none ∧ SameEngine s t) := by
  rcases step_cases h with ⟨hr', -⟩ | ⟨-, he, hc⟩ | ⟨-, he, hhost⟩
  · rw [hr] at hr'; cases hr'
  · exact .inl ⟨he, complete_next hc⟩
  · rcases hhost with ⟨-, rest, r, v, -, hw, ht⟩ | ⟨-, rest, rest', r, -, hw, rfl⟩ | ⟨rest, -, hw, rfl⟩ | ⟨-, hw, rfl⟩
    · exact .inr (.inl ⟨he, r, v, rest, hw, ht⟩)
    · exact .inr (.inr ⟨he, hw, by constructor <;> rfl⟩)
    · exact .inr (.inr ⟨he, hw, by constructor <;> rfl⟩)
    · exact .inr (.inr ⟨he, hw, by constructor <;> rfl⟩)

/-- The result registers across a step that is not the reset: a completion commits, every other step keeps them. -/
theorem step_resultRegs (h : step s = .next t) (hr : s.resetLine = false) :
    (engineTurn s = true ∧
      ∃ c, decodeOp s.lop = some c ∧ resultRegs t = commandOutputs c s.ldin s.lkey (resultRegs s)) ∨
    (engineTurn s = false ∧ resultRegs t = resultRegs s) := by
  rcases step_cases_engine h hr with ⟨he, c, hc, rfl⟩ | ⟨he, r, v, rest, -, rfl⟩ | ⟨he, -, hsame⟩
  · exact .inl ⟨he, c, hc, completeCommand_resultRegs c s⟩
  · exact .inr ⟨he, (memWrite_frame r v (hostTakes rest s)).1⟩
  · exact .inr ⟨he, hsame.results⟩

/-! ### The start of a command -/

/-- From `s` to `t` a command is started, or a latch of R30 changes. -/
def TouchesLatches (s t : State) : Prop :=
  (s.phase = .idle ∧ t.phase = .busy) ∨ t.lop ≠ s.lop ∨ t.ldin ≠ s.ldin ∨ t.lkey ≠ s.lkey

theorem not_touchesLatches (hphase : t.phase = s.phase ∨ t.phase = .idle) (hlop : t.lop = s.lop)
    (hldin : t.ldin = s.ldin) (hlkey : t.lkey = s.lkey) : ¬ TouchesLatches s t := by
  rintro (⟨hidle, hbusy⟩ | hne | hne | hne)
  · rcases hphase with hp | hp
    · rw [hp, hidle] at hbusy; cases hbusy
    · rw [hp] at hbusy; cases hbusy
  · exact hne hlop
  · exact hne hldin
  · exact hne hlkey

/-- R81: of the three outcomes of a CMD write, only acceptance touches the latches. -/
theorem accepted_of_touchesLatches_commandWrite {v : Block} (h : TouchesLatches s (commandWrite v s)) :
    s.phase = .idle ∧ decodeCmd v ≠ none ∧ commandWrite v s = accept v s := by
  rcases commandWrite_cases v s with ⟨-, he⟩ | ⟨-, -, he⟩ | ⟨hp, hv, he⟩
  · rw [he] at h
    exact absurd h (not_touchesLatches (.inl rfl) rfl rfl rfl)
  · rw [he] at h
    exact absurd h (not_touchesLatches (.inl rfl) rfl rfl rfl)
  · exact ⟨hp, Option.isSome_iff_ne_none.mp hv, he⟩

theorem cmd_of_touchesLatches_memWrite {r : Reg} {v : Block} (h : TouchesLatches s (memWrite r v s)) : r = .cmd := by
  by_contra hr
  obtain ⟨hphase, hlop, hldin, hlkey⟩ := memWrite_latches_of_ne_cmd hr v s
  exact not_touchesLatches (.inl hphase) hlop hldin hlkey h

/-! ### The round-key registers -/

/-- Three round keys that are the reset values or one whole key expansion: `RoundKeysInv` of the values alone. -/
def WholeRoundKeys (keys : Block × Block × Block) : Prop :=
  keys = (0, 0, 0) ∨ keys = keyExpansion sboxFwd keys.1

theorem roundKeysInv_iff : RoundKeysInv s ↔ WholeRoundKeys (resultRegs s).2 := by
  simp only [RoundKeysInv, WholeRoundKeys, resultRegs, Prod.mk.injEq]

/-- RK0 is the key itself (R149), so that an expansion is the expansion of its own first round key. -/
@[simp] theorem keyExpansion_fst (box : SboxTable) (k : Block) : (keyExpansion box k).1 = k :=
  highByte_append_lowByte k

theorem wholeRoundKeys_keyExpansion (k : Block) : WholeRoundKeys (keyExpansion sboxFwd k) :=
  .inr (by rw [keyExpansion_fst])

theorem wholeRoundKeys_commandOutputs {old : Block × Block × Block × Block} (h : WholeRoundKeys old.2) (c : Command)
    (din key : Block) : WholeRoundKeys (commandOutputs c din key old).2 := by
  by_cases hc : c = .keyexp
  · rw [hc, commandOutputs_keyexp]
    exact wholeRoundKeys_keyExpansion key
  · rwa [commandOutputs_snd hc]

theorem roundKeysInv_applyReset (s : State) : RoundKeysInv (applyReset s) := .inl ⟨rfl, rfl, rfl⟩

/-! ### The obligations -/

/-- Settles O55: the reset zeroes the round keys, a completion commits none or a whole expansion, and every other step
keeps them. -/
theorem stepKeepsTheRoundKeysWhole : Obligations.StepKeepsTheRoundKeysWhole := by
  intro s t hinv hstep
  by_cases hr : s.resetLine = true
  · rw [step_reset hr] at hstep
    injection hstep with ht
    exact ht ▸ roundKeysInv_applyReset s
  · rw [roundKeysInv_iff] at hinv ⊢
    rcases step_resultRegs hstep (by simpa using hr) with ⟨-, c, -, ht⟩ | ⟨-, ht⟩
    · exact ht ▸ wholeRoundKeys_commandOutputs hinv c s.ldin s.lkey
    · exact ht ▸ hinv

/-- Settles O29: both states complete the same command, and its outputs are a function of the latches but for the registers
the command leaves. -/
theorem completionDependsOnTheLatchesAlone : Obligations.CompletionDependsOnTheLatchesAlone := by
  intro s s' t t' hlop hldin hlkey hs hs'
  obtain ⟨c, hc, rfl⟩ := complete_next hs
  obtain ⟨c', hc', rfl⟩ := complete_next hs'
  obtain rfl : c = c' := by rw [← hlop, hc] at hc'; injection hc'
  have hout := completeCommand_resultRegs c s
  have hout' := completeCommand_resultRegs c s'
  rw [← hldin, ← hlkey] at hout'
  rw [ne_eq, opcode_eq_three_iff hc]
  refine ⟨fun hne => ?_, ?_⟩
  · calc (completeCommand c s).dout
        = (commandOutputs c s.ldin s.lkey (resultRegs s)).1 := congrArg (·.1) hout
      _ = (commandOutputs c s.ldin s.lkey (resultRegs s')).1 := commandOutputs_fst_congr hne _ _ _ _
      _ = (completeCommand c s').dout := (congrArg (·.1) hout').symm
  · rintro rfl
    exact ⟨congrArg (fun keys => (keyExpansion sboxFwd keys).1) hlkey,
      congrArg (fun keys => (keyExpansion sboxFwd keys).2.1) hlkey,
      congrArg (fun keys => (keyExpansion sboxFwd keys).2.2) hlkey⟩

/-- Settles O34: neither a completion nor a step without a host write touches the latches, and of the host's writes only an
accepted one of CMD does. -/
theorem onlyAcceptanceStartsACommand : Obligations.OnlyAcceptanceStartsACommand := by
  intro s t hstep hr (htouch : TouchesLatches s t)
  rcases step_cases_engine hstep hr with ⟨-, c, -, rfl⟩ | ⟨-, r, v, rest, hw, rfl⟩ | ⟨-, -, hsame⟩
  · exact absurd htouch (not_touchesLatches (by simp) (by simp) (by simp) (by simp))
  · have htouch : TouchesLatches (hostTakes rest s) (memWrite r v (hostTakes rest s)) := htouch
    obtain rfl := cmd_of_touchesLatches_memWrite htouch
    obtain ⟨hidle, hv, he⟩ := accepted_of_touchesLatches_commandWrite htouch
    have ht : memWrite .cmd v (hostTakes rest s) = accept v (hostTakes rest s) := he
    rw [ht]
    exact ⟨v, hw, hv, hidle, rfl, rfl, rfl, rfl⟩
  · exact absurd htouch (not_touchesLatches (.inl hsame.phase) hsame.lop hsame.ldin hsame.lkey)

/-- Settles O35: completions leave the operand registers, and so does every host write of another register. -/
theorem onlyTheHostWritesOperandRegisters : Obligations.OnlyTheHostWritesOperandRegisters := by
  intro s t hstep hr
  rcases step_cases_engine hstep hr with ⟨-, c, -, rfl⟩ | ⟨-, r, v, rest, hw, rfl⟩ | ⟨-, -, hsame⟩
  · simp
  · rw [hw, memWrite_din, memWrite_key, hostTakes_din, hostTakes_key]
    constructor
    · split_ifs with hreg
      · exact fun _ => by rw [hreg]
      · exact fun hne => absurd rfl hne
    · split_ifs with hreg
      · exact fun _ => by rw [hreg]
      · exact fun hne => absurd rfl hne
  · exact ⟨fun hne => absurd hsame.din hne, fun hne => absurd hsame.key hne⟩

/-- Settles O36: only a completion changes the result registers, KEYEXP keeping DOUT and every other command keeping
RK0..RK2. -/
theorem onlyCompletionWritesResultRegisters : Obligations.OnlyCompletionWritesResultRegisters := by
  intro s t hstep hr
  rcases step_resultRegs hstep hr with ⟨he, c, hc, ht⟩ | ⟨-, ht⟩
  · rw [ne_eq, ne_eq, opcode_eq_three_iff hc]
    refine ⟨fun hdout => ⟨he, ?_⟩, fun hkeys => ⟨he, ?_⟩⟩
    · rintro rfl
      exact hdout (congrArg (·.1) ht)
    · by_contra hne
      have hkept : (resultRegs t).2 = (resultRegs s).2 := by rw [ht, commandOutputs_snd hne]
      exact resultRegs_snd_ne_iff.mpr hkeys hkept
  · exact ⟨fun hdout => absurd (congrArg (·.1) ht) hdout,
      fun hkeys => absurd (congrArg (·.2) ht) (resultRegs_snd_ne_iff.mpr hkeys)⟩

/-- Settles O12, from the bits of the STATUS word. -/
theorem statusReadsBusyDoneIllOvr : Obligations.StatusReadsBusyDoneIllOvr := by
  intro s
  simp only [memRead_status, getLsbD_statusWord]
  refine ⟨by simp [State.busy, beq_eq_decide], by simp, by simp, by simp, fun k hk => ?_⟩
  rw [if_neg (by omega), if_neg (by omega), if_neg (by omega), if_neg (by omega)]

/-- Settles O13: CMD is a view of LOP, which of the outcomes of a CMD write only acceptance sets. -/
theorem cmdReadsTheLastAcceptedOpcode : Obligations.CmdReadsTheLastAcceptedOpcode := by
  intro s v
  refine ⟨rfl, fun k hk => getLsbD_zext16_of_le s.lop hk, commandWrite v s, exec_wr .cmd v s, ?_⟩
  simp only [memRead_cmd]
  rcases commandWrite_cases v s with ⟨hp, he⟩ | ⟨hp, hv, he⟩ | ⟨hp, hv, he⟩
  · simp [he, hp]
  · simp [he, hp, hv]
  · have hv : decodeCmd v ≠ none := Option.isSome_iff_ne_none.mp hv
    simp [he, hp, hv, zext16_opField]

/-- Settles O15: `wr STATUS` is the write-1-to-clear. -/
theorem statusWriteClearsByOnes : Obligations.StatusWriteClearsByOnes := by
  intro s v
  rw [exec_wr, ← statusWrite_eq]
  rfl

end Sys2Proof.Machine

/-! PROOFS. The family 20_memory.md: the register window. First what a read returns and what a write leaves, then the
addresses, then the obligations. -/

namespace Sys2Proof.Machine

variable {s : State}

/-! ### Reads of the window (R45, R50) -/

@[simp] theorem memRead_din (s : State) : memRead .din s = s.din := rfl

@[simp] theorem memRead_key (s : State) : memRead .key s = s.key := rfl

theorem busy_eq_decide (s : State) : s.busy = decide (s.phase = .busy) := beq_eq_decide ..

theorem busy_of_idle (h : s.phase = .idle) : s.busy = false := by simp [busy_eq_decide, h]

theorem engineTurn_of_idle (h : s.phase = .idle) : engineTurn s = false := by simp [engineTurn, busy_of_idle h]

/-- No read is a free draw while IDLE. -/
theorem readIsFree_of_idle (h : s.phase = .idle) (r : Reg) : readIsFree r s = false := by
  cases r with
  | dout | rk0 | rk1 | rk2 => exact busy_of_idle h
  | din | key | cmd | status => rfl

theorem memRead_of_idle (h : s.phase = .idle) (r : Reg) : memRead r s = storedValue r s := by
  rw [memRead, readIsFree_of_idle h, if_neg Bool.false_ne_true]

/-- While IDLE the four result registers read what they hold. -/
theorem memRead_results_of_idle (h : s.phase = .idle) :
    memRead .dout s = s.dout ∧ memRead .rk0 s = s.rk0 ∧ memRead .rk1 s = s.rk1 ∧ memRead .rk2 s = s.rk2 :=
  ⟨memRead_of_idle h .dout, memRead_of_idle h .rk0, memRead_of_idle h .rk1, memRead_of_idle h .rk2⟩

/-! ### What the writes leave (R46, R48) -/

theorem memRead_set_din {other : Reg} (h : other ≠ .din) (v : Block) (s : State) :
    memRead other { s with din := v } = memRead other s := by
  cases other with
  | din => exact absurd rfl h
  | key | cmd | status | dout | rk0 | rk1 | rk2 => rfl

theorem memRead_set_key {other : Reg} (h : other ≠ .key) (v : Block) (s : State) :
    memRead other { s with key := v } = memRead other s := by
  cases other with
  | key => exact absurd rfl h
  | din | cmd | status | dout | rk0 | rk1 | rk2 => rfl

theorem memRead_statusWrite {other : Reg} (h : other ≠ .status) (v : Block) (s : State) :
    memRead other (statusWrite v s) = memRead other s := by
  cases other with
  | status => exact absurd rfl h
  | din | key | cmd | dout | rk0 | rk1 | rk2 => rfl

theorem memRead_memWrite_of_ne {r other : Reg} (hr : r ≠ .cmd) (hother : other ≠ r) (v : Block) (s : State) :
    memRead other (memWrite r v s) = memRead other s := by
  rcases memWrite_cases r v s with ⟨rfl, he⟩ | ⟨rfl, he⟩ | ⟨rfl, -⟩ | ⟨rfl, he⟩ | he
  · rw [he, memRead_set_din hother]
  · rw [he, memRead_set_key hother]
  · exact absurd rfl hr
  · rw [he, memRead_statusWrite hother]
  · rw [he]

/-- A bit that a STATUS write has cleared stays cleared by the same write. -/
theorem statusWrite_idem (v : Block) (s : State) : statusWrite v (statusWrite v s) = statusWrite v s := by
  simp [statusWrite]

theorem memWrite_idem {r : Reg} (hr : r ≠ .cmd) (v : Block) (s : State) :
    memWrite r v (memWrite r v s) = memWrite r v s := by
  cases r with
  | cmd => exact absurd rfl hr
  | status => exact statusWrite_idem v s
  | din | key | dout | rk0 | rk1 | rk2 => rfl

/-- The second of two CMD writes finds the block BUSY with the first one's command. -/
theorem commandWrite_accepted (v w : Block) (s : State) :
    commandWrite w (accept v s) = { accept v s with ovr := true } :=
  commandWrite_busy (accept_phase s v) w

/-! ### The window's addresses (R41) -/

/-- An address maps to a register exactly where it is that register's. -/
theorem windowReg_eq_some_iff {a : Nat} {r : Reg} : windowReg a = some r ↔ a = windowAddress r := by
  unfold windowReg windowAddress
  constructor
  · intro h
    split at h
    · rename_i hwindow
      injection h with h
      have hindex : r.index.toNat = (a - Config.base) % 2 ^ 3 := by
        rw [← h, index_ofIndex, BitVec.toNat_ofNat]
      omega
    · cases h
  · rintro rfl
    have hlt : r.index.toNat < 8 := r.index.isLt
    rw [if_pos (by omega), Nat.add_sub_cancel_left, BitVec.ofNat_toNat, BitVec.setWidth_eq, ofIndex_index]

/-! ### The obligations -/

/-- Settles O37: while IDLE the next step is no completion, and a read is no draw. -/
theorem resultsStayWhileIdle : Obligations.ResultsStayWhileIdle := by
  intro s t hidle hr hstep
  refine ⟨?_, memRead_results_of_idle hidle⟩
  rcases step_resultRegs hstep hr with ⟨he, -⟩ | ⟨-, hkept⟩
  · rw [engineTurn_of_idle hidle] at he
    cases he
  · exact hkept

/-- Settles O10: the next state is `readIntoScratch`, whose h is what `memRead` returns. -/
theorem readReturnsTheRegister : Obligations.ReadReturnsTheRegister := by
  intro s reg data
  refine ⟨readIntoScratch reg s, exec_rd reg data s, rfl, ?_⟩
  rw [readIntoScratch_h]
  refine ⟨?din, ?key, ?cmd, ?status, fun hidle => ?results⟩
  case din => rintro rfl; exact memRead_din s
  case key => rintro rfl; exact memRead_key s
  case cmd => rintro rfl; exact memRead_cmd s
  case status =>
    rintro rfl
    rw [memRead_status, statusWord, busy_eq_decide]
  case results =>
    obtain ⟨hdout, hrk0, hrk1, hrk2⟩ := memRead_results_of_idle hidle
    exact ⟨fun hreg => hreg ▸ hdout, fun hreg => hreg ▸ hrk0, fun hreg => hreg ▸ hrk1, fun hreg => hreg ▸ hrk2⟩

/-- Settles O14: `wr` is `memWrite`, whose arms are these. -/
theorem writeActsByRegister : Obligations.WriteActsByRegister := fun s v =>
  ⟨exec_wr .din v s, exec_wr .key v s, exec_wr .cmd v s, exec_wr .status v s, exec_wr .dout v s, exec_wr .rk0 v s,
    exec_wr .rk1 v s, exec_wr .rk2 v s⟩

/-- Settles O16: none of the writes but that of CMD reaches another register, PHASE or the draw counter. -/
theorem writeLeavesOtherRegistersAlone : Obligations.WriteLeavesOtherRegistersAlone := by
  intro s t reg other v hreg hother hexec
  rw [exec_wr] at hexec
  injection hexec with ht
  rw [← ht, memRead_memWrite_of_ne hreg hother]

/-- Settles O17: `memWrite_idem`, and for CMD the first write's acceptance, after which the block is BUSY. -/
theorem writesButCmdAreIdempotent : Obligations.WritesButCmdAreIdempotent := by
  constructor
  · intro s t reg v hreg hexec
    rw [exec_wr] at hexec ⊢
    injection hexec with ht
    rw [← ht, memWrite_idem hreg]
  · intro s t v hidle hv hexec
    obtain ⟨c, hc⟩ := Option.ne_none_iff_exists'.mp hv
    have haccept : memWrite .cmd v s = accept v s := commandWrite_accept hidle hc
    rw [exec_wr, haccept] at hexec
    injection hexec with ht
    rw [exec_wr, ← ht]
    exact congrArg _ (commandWrite_accepted v v s)

/-- Settles O18: both directions of `windowReg_eq_some_iff`. -/
theorem windowHoldsTheEightRegisters : Obligations.WindowHoldsTheEightRegisters :=
  ⟨fun _ => ⟨rfl, windowReg_eq_some_iff.mpr rfl⟩, fun _ _ => windowReg_eq_some_iff.mp⟩

end Sys2Proof.Machine

/-! PROOFS. The family 30_encoding.md: the opcode map, the words of both formats, and the lines of a host script. First the
rules of the decoder and of the script's actions, then the obligations. -/

namespace Sys2Proof.Machine

variable {s : State}

/-! ### Command words (R61 to R64) -/

/-- R62 and R63 on the four bits of OP. -/
theorem decodeOp_eq_ite : ∀ op : Nibble,
    decodeOp op =
      if op = 0x1#4 then some .enc
      else if op = 0x2#4 then some .dec
      else if op = 0x3#4 then some .keyexp
      else if op = 0x4#4 then some .gfmul
      else if op = 0x5#4 then some .sbox
      else if op = 0x6#4 then some .sboxinv
      else none := by
  decide

theorem decodeOp_reserved : ∀ op : Nibble, op = 0x0#4 ∨ 0x7#4 ≤ op → decodeOp op = none := by decide

theorem decode_cmdw_illegal {v : Block} (h : decodeCmd v = none) :
    decode (.cmdw v) = .error (.illegalOpcode v) := by
  simp only [decode, decodeCmdw, h]

/-- A write of CMD depends on OP alone: neither the opcode map nor the acceptance reads IGN. -/
theorem commandWrite_congr {v w : Block} (h : opField v = opField w) (s : State) :
    commandWrite v s = commandWrite w s := by
  have hdecode : decodeCmd v = decodeCmd w := congrArg decodeOp h
  have haccept : accept v s = accept w s := by simp only [accept, h]
  simp only [commandWrite, hdecode, haccept]

/-! ### Transaction words (R67) -/

theorem decodeBus_write {t : BusWord} {reg : Reg} (hreg : reg.index = t.extractLsb' 16 3)
    (hw : t.getLsbD 19 = true) : decodeBus t = .wr reg (t.extractLsb' 0 16) := by
  simp only [decodeBus, hw, if_true, ← hreg, ofIndex_index]

theorem decodeBus_read {t : BusWord} {reg : Reg} (hreg : reg.index = t.extractLsb' 16 3)
    (hw : t.getLsbD 19 = false) : decodeBus t = .rd reg (t.extractLsb' 0 16) := by
  simp only [decodeBus, hw, Bool.false_eq_true, if_false, ← hreg, ofIndex_index]

/-- A read leaves everything but h, its mark and the draw counter (R48, R68). -/
theorem readIntoScratch_frame (r : Reg) (s : State) :
    { readIntoScratch r s with h := s.h, hDefined := s.hDefined, draws := s.draws } = s := rfl

theorem runWord_busWord_write (r : Reg) (d : Block) (s : State) :
    runWord (.bus (busWord true r d)) s = .next (memWrite r d s) :=
  runWord_write (writeOf_busWord true r d) s

/-! ### The completion step (R82) -/

@[simp] theorem completeCommand_done (c : Command) (s : State) : (completeCommand c s).done = true := by
  rw [completeCommand_eq]

@[simp] theorem completeCommand_ill (c : Command) (s : State) : (completeCommand c s).ill = s.ill := by
  rw [completeCommand_eq]

@[simp] theorem completeCommand_ovr (c : Command) (s : State) : (completeCommand c s).ovr = s.ovr := by
  rw [completeCommand_eq]

@[simp] theorem completeCommand_script (c : Command) (s : State) : (completeCommand c s).script = s.script := by
  rw [completeCommand_eq]

@[simp] theorem completeCommand_resetLine (c : Command) (s : State) :
    (completeCommand c s).resetLine = s.resetLine := by
  rw [completeCommand_eq]

/-- The completion step of the command in flight, once nothing is left to wait for (R82). -/
theorem step_completes {c : Command} (hr : s.resetLine = false) (hbusy : s.phase = .busy) (hwait : s.wait = 0)
    (hlop : s.lop = c.opcode) : step s = .next (completeCommand c s) := by
  rw [step_engine hr (engineTurn_eq_true.mpr ⟨hbusy, .inl hwait⟩), complete, hlop, decodeCmd_zext16, decodeOp_opcode]

/-! ### The lines of a host script (R68, R69) -/

theorem hostAct_wrh_defined (h : s.hDefined = true) (r : Reg) :
    hostAct (.wrh r) s = .next (memWrite r s.h s) := by
  simp only [hostAct, h, if_true]
  exact runWord_busWord_write r s.h s

theorem hostAct_wrh_undefined (h : s.hDefined = false) (r : Reg) :
    hostAct (.wrh r) s = .refused .scratchUndefined := by
  simp only [hostAct, h, Bool.false_eq_true, if_false]

/-- One turn of `poll`: the STATUS read whose bit 0, BUSY, decides whether the line stays. -/
theorem step_poll {rest : List HostAction} (hr : s.resetLine = false) (he : engineTurn s = false)
    (hs : s.script = .poll :: rest) :
    step s = .next { hostTakes (if s.phase = .busy then .poll :: rest else rest) s with
      h := statusWord s, hDefined := true } := by
  have hbit : (statusWord s).getLsbD 0 = decide (s.phase = .busy) := by
    rw [getLsbD_statusWord, if_pos rfl, busy_eq_decide]
  have hread : (readIntoScratch .status (hostTakes rest s)).h = statusWord s := rfl
  rw [step_host hr he hs, hostAct_poll, pollAgain_eq, hread, hbit]
  simp only [decide_eq_true_eq]
  rfl

/-- The acceptance of the CMD write that begins a `run` line (R81). -/
theorem step_run {c : Command} {ign : BitVec 12} {rest : List HostAction} (hidle : s.phase = .idle)
    (hr : s.resetLine = false) (hs : s.script = expandLine (.run (cmdWord c ign)) ++ rest) :
    step s = .next (accept (cmdWord c ign) (hostTakes (.poll :: rest) s)) := by
  have hs : s.script = .word (.bus (busWord true .cmd (cmdWord c ign))) :: .poll :: rest := hs
  have haccept := commandWrite_accept (s := hostTakes (.poll :: rest) s) hidle (decodeCmd_cmdWord c ign)
  rw [step_host hr (engineTurn_of_idle hidle) hs, ← haccept]
  exact runWord_busWord_write .cmd (cmdWord c ign) _

/-- The turn of `poll` that ends it: the STATUS read. -/
theorem step_poll_idle {rest : List HostAction} (hidle : s.phase = .idle) (hr : s.resetLine = false)
    (hs : s.script = .poll :: rest) : step s = .next (readIntoScratch .status (hostTakes rest s)) := by
  rw [step_poll hr (engineTurn_of_idle hidle) hs, hidle, if_neg (by decide)]
  rfl

/-- The state a `run` line ends in once its command is accepted: the completion has come, and the last `poll` has read
STATUS and left the script. -/
def afterPoll (c : Command) (rest : List HostAction) (s : State) : State :=
  readIntoScratch .status (hostTakes rest (completeCommand c s))

/-- A `poll` before the completion leaves no trace after it: h is read again, and the completion ends the wait. -/
theorem afterPoll_of_poll (c : Command) (rest rest' : List HostAction) (h : Block) (s : State) :
    afterPoll c rest { hostTakes rest' s with h := h, hDefined := true } = afterPoll c rest s := by
  cases c <;> rfl

/-- Wherever the completion falls, `poll` ends after it, in one and the same state (R69, R86): induction on the host steps
left before the completion. -/
theorem run_poll_of_busy {c : Command} {rest : List HostAction} (k : Nat) :
    ∀ {s : State}, s.wait = k → s.phase = .busy → s.lop = c.opcode → s.resetLine = false →
      s.script = .poll :: rest → ∃ n, Sys2Proof.core.run n s = .next (afterPoll c rest s) := by
  induction k with
  | zero =>
    intro s hwait hbusy hlop hr hs
    have hpoll : step (completeCommand c s) = .next (afterPoll c rest s) :=
      step_poll_idle (completeCommand_phase c s) ((completeCommand_resetLine c s).trans hr)
        ((completeCommand_script c s).trans hs)
    exact ⟨2, (run_succ 1 (step_completes hr hbusy hwait hlop)).trans (run_succ 0 hpoll)⟩
  | succ k ih =>
    intro s hwait hbusy hlop hr hs
    have he : engineTurn s = false := by
      rw [← Bool.not_eq_true, engineTurn_eq_true, hwait, hs]
      simp
    have hpoll := step_poll hr he hs
    rw [if_pos hbusy] at hpoll
    obtain ⟨n, hrun⟩ := ih (s := { hostTakes (.poll :: rest) s with h := statusWord s, hDefined := true })
      (by simp [hbusy, hwait]) hbusy hlop hr rfl
    exact ⟨n + 1, by rw [run_succ n hpoll, hrun, afterPoll_of_poll]⟩

theorem resultRegs_afterPoll (c : Command) (rest : List HostAction) (s : State) :
    resultRegs (afterPoll c rest s) = commandOutputs c s.ldin s.lkey (resultRegs s) :=
  completeCommand_resultRegs c s

/-- What the last `poll` of a `run` line reads: STATUS after the completion, its bit 0 being 0. -/
theorem afterPoll_h (c : Command) (rest : List HostAction) (s : State) :
    (afterPoll c rest s).h = statusWord (afterPoll c rest s) ∧ (afterPoll c rest s).h.getLsbD 0 = false := by
  have hread : (afterPoll c rest s).h = statusWord (afterPoll c rest s) := rfl
  have hidle : (afterPoll c rest s).phase = .idle := completeCommand_phase c s
  refine ⟨hread, ?_⟩
  rw [hread, getLsbD_statusWord, if_pos rfl, busy_of_idle hidle]

/-! ### The obligations -/

/-- Settles O59: the acceptance, and the polls up to the one after the completion. -/
theorem runLineEndsWithTheResult : Obligations.RunLineEndsWithTheResult := by
  intro s c ign rest hidle hr hs
  have haccepted := step_run hidle hr hs
  obtain ⟨n, hrun⟩ := run_poll_of_busy (c := c) (rest := rest) _
    (s := accept (cmdWord c ign) (hostTakes (.poll :: rest) s)) rfl rfl (opField_cmdWord c ign) hr rfl
  obtain ⟨hread, hbit⟩ := afterPoll_h c rest (accept (cmdWord c ign) (hostTakes (.poll :: rest) s))
  refine ⟨n + 1, _, (run_succ n haccepted).trans hrun, rfl, ?_, ?_, ?_, ?_, resultRegs_afterPoll c rest _, hread, hbit,
    rfl, ?_, ?_, ?_, ?_⟩ <;> simp [afterPoll, hr]

/-- Settles O4, by the sixteen values of OP. -/
theorem commandDecodingFollowsTheOpcodeMap : Obligations.CommandDecodingFollowsTheOpcodeMap :=
  fun v => decodeOp_eq_ite (opField v)

/-- Settles O5: the word decodes by its bit 19, and `wr` and `rd` are the two accesses. -/
theorem transactionWordPerformsItsAccess : Obligations.TransactionWordPerformsItsAccess := by
  intro t reg s hreg
  refine ⟨decodeBus t, rfl, fun hw => ?write, fun hw => ?read⟩
  case write => rw [decodeBus_write hreg hw, exec_wr]
  case read =>
    rw [decodeBus_read hreg hw, exec_rd]
    exact ⟨_, rfl, readIntoScratch_h s reg, readIntoScratch_hDefined s reg, readIntoScratch_frame reg s⟩

/-- Settles O7: both command words have the same OP. -/
theorem ignoredCommandBitsHaveNoEffect : Obligations.IgnoredCommandBitsHaveNoEffect := by
  intro c ign s
  have hop : opField (cmdWord c ign) = opField (cmdWord c 0) := by rw [opField_cmdWord, opField_cmdWord]
  rw [exec_command, exec_command, commandWrite_congr hop]

/-- Settles O21: a reserved OP selects no command, and the two refusals of a CMD write are the two error bits. -/
theorem reservedOpcodeSetsOneErrorBit : Obligations.ReservedOpcodeSetsOneErrorBit := by
  intro s v hv
  have hnone : decodeCmd v = none := decodeOp_reserved (opField v) hv
  refine ⟨decode_cmdw_illegal hnone, fun hidle => ?idle, fun hbusy => ?busy⟩
  case idle =>
    rw [exec_wr]
    exact congrArg _ (commandWrite_illegal hidle hnone)
  case busy =>
    rw [exec_wr]
    exact congrArg _ (commandWrite_busy hbusy v)

/-- Settles O41: the expansions are the definition's, and `step_poll`. -/
theorem pollRepeatsWhileBusy : Obligations.PollRepeatsWhileBusy :=
  ⟨fun _ => rfl, fun _ _ => rfl, fun _ _ => step_poll⟩

/-- Settles O42: the two outcomes of a `wrh` line on the host's turn. -/
theorem wrhWritesTheScratchValue : Obligations.WrhWritesTheScratchValue := by
  intro s reg rest hr he hs
  rw [step_host hr he hs, exec_wr]
  exact ⟨fun hdef => hostAct_wrh_defined (s := hostTakes rest s) hdef reg,
    fun hundef => hostAct_wrh_undefined (s := hostTakes rest s) hundef reg⟩

end Sys2Proof.Machine

/-! PROOFS. The family 40_engine_control.md: the command lifecycle, and the runs from a safe state. First the completion
step, reads while BUSY, and what one host action does; then the invariant of the lifecycle; then the obligations. -/

namespace Sys2Proof.Machine

variable {s t u : State}

/-! ### The completion step (R82, R88) -/

@[simp] theorem completeCommand_wait (c : Command) (s : State) : (completeCommand c s).wait = 0 := by
  rw [completeCommand_eq]

@[simp] theorem completeCommand_hDefined (c : Command) (s : State) :
    (completeCommand c s).hDefined = s.hDefined := by
  rw [completeCommand_eq]

theorem complete_of_decodeOp {c : Command} (h : decodeOp s.lop = some c) :
    complete s = .next (completeCommand c s) := by
  rw [complete, decodeCmd_zext16, h]

/-- R88: a completion reads LDIN, never DIN. -/
theorem completeCommand_set_din (c : Command) (s : State) (v : Block) :
    completeCommand c { s with din := v } = { completeCommand c s with din := v } := by
  rw [completeCommand_eq, completeCommand_eq]; rfl

/-- R88: a completion reads LKEY, never KEY. -/
theorem completeCommand_set_key (c : Command) (s : State) (v : Block) :
    completeCommand c { s with key := v } = { completeCommand c s with key := v } := by
  rw [completeCommand_eq, completeCommand_eq]; rfl

/-! ### Reads while BUSY (R87) -/

theorem readIsFree_of_busy (hbusy : s.phase = .busy) {r : Reg} (hr : r = .dout ∨ r = .rk0 ∨ r = .rk1 ∨ r = .rk2) :
    readIsFree r s = true := by
  have hb : s.busy = true := by simp [busy_eq_decide, hbusy]
  rcases hr with rfl | rfl | rfl | rfl <;> exact hb

theorem readIsFree_of_no_result {r : Reg} (hr : r = .din ∨ r = .key ∨ r = .cmd ∨ r = .status) (s : State) :
    readIsFree r s = false := by
  rcases hr with rfl | rfl | rfl | rfl <;> rfl

/-! ### What one host action does -/

/-- The states a host action can answer: after a window write, after a read (of which `poll` may put its line back), or
with the reset event raised. -/
inductive HostEffect (a : HostAction) (s : State) : State → Prop
  | write (r : Reg) (v : Block) : HostEffect a s (memWrite r v s)
  | read (r : Reg) (script : List HostAction) (hsub : script ⊆ a :: s.script) :
      HostEffect a s { readIntoScratch r s with script := script }
  | reset (ha : a = .reset) : HostEffect a s { s with resetLine := true }

/-- A window write touches neither the script nor the mark on h, so it keeps the script's check. -/
theorem scriptWf_memWrite (r : Reg) (v : Block) (h : scriptWf s.hDefined s.script = true) :
    scriptWf (memWrite r v s).hDefined (memWrite r v s).script = true := by
  obtain ⟨-, -, hdef, hscript, -⟩ := memWrite_frame r v s
  rwa [hdef, hscript]

/-- The next action of a well-formed script is never refused, and the script left is well-formed again (R68). -/
theorem hostAct_of_scriptWf (a : HostAction) (hwf : scriptWf s.hDefined (a :: s.script) = true) :
    ∃ t, hostAct a s = .next t ∧ HostEffect a s t ∧ scriptWf t.hDefined t.script = true := by
  cases a with
  | word w =>
    simp only [scriptWf] at hwf
    cases hw : writeOf w with
    | some p =>
      rw [isRead_eq_false_of_writeOf hw, Bool.or_false] at hwf
      exact ⟨_, runWord_write hw s, .write p.1 p.2, scriptWf_memWrite p.1 p.2 hwf⟩
    | none =>
      obtain ⟨r, hread, hrun⟩ := runWord_read hw s
      rw [hread, Bool.or_true] at hwf
      exact ⟨_, hrun, .read r s.script (List.subset_cons_self _ _), hwf⟩
  | wrh r =>
    simp only [scriptWf, Bool.and_eq_true] at hwf
    obtain ⟨hdef, hwf⟩ := hwf
    exact ⟨_, hostAct_wrh_defined hdef r, .write r s.h, scriptWf_memWrite r s.h hwf⟩
  | poll =>
    simp only [scriptWf] at hwf
    refine ⟨_, hostAct_poll s, ?effect, ?wf⟩ <;> rw [pollAgain_eq]
    case effect =>
      refine .read .status _ ?_
      rw [readIntoScratch_script]
      split
      · exact List.Subset.refl _
      · exact List.subset_cons_self _ _
    case wf =>
      simp only [readIntoScratch_hDefined, readIntoScratch_script]
      split <;> exact hwf
  | reset => exact ⟨_, rfl, .reset rfl, hwf⟩

/-! ### The lifecycle invariant -/

theorem lifecycleInv_applyReset (s : State) : LifecycleInv (applyReset s) :=
  ⟨nofun, fun _ => rfl, .inl rfl⟩

theorem lifecycleInv_hostTakes (h : LifecycleInv s) (rest : List HostAction) : LifecycleInv (hostTakes rest s) := by
  obtain ⟨hbusy, hidle, hlop⟩ := h
  refine ⟨hbusy, fun (hp : s.phase = .idle) => ?_, hlop⟩
  rw [hostTakes_wait, hp]
  exact hidle hp

theorem lifecycleInv_completeCommand (h : LifecycleInv s) (c : Command) : LifecycleInv (completeCommand c s) := by
  obtain ⟨-, -, hlop⟩ := h
  refine ⟨fun hp => ?_, fun _ => completeCommand_wait c s, ?_⟩
  · rw [completeCommand_phase] at hp
    cases hp
  · rwa [completeCommand_lop]

/-- R81: acceptance latches a legal opcode and clears DONE. -/
theorem lifecycleInv_accept {v : Block} (hv : (decodeCmd v).isSome = true) (s : State) : LifecycleInv (accept v s) :=
  ⟨fun _ => ⟨hv, rfl⟩, nofun, .inr hv⟩

theorem lifecycleInv_commandWrite (h : LifecycleInv s) (v : Block) : LifecycleInv (commandWrite v s) := by
  rcases commandWrite_cases v s with ⟨-, he⟩ | ⟨-, -, he⟩ | ⟨-, hv, he⟩ <;> rw [he]
  · exact h
  · exact h
  · exact lifecycleInv_accept hv s

theorem lifecycleInv_memWrite (h : LifecycleInv s) (r : Reg) (v : Block) : LifecycleInv (memWrite r v s) := by
  cases r with
  | cmd => exact lifecycleInv_commandWrite h v
  | din | key | status | dout | rk0 | rk1 | rk2 => exact h

theorem HostEffect.lifecycleInv {a : HostAction} (he : HostEffect a s t) (h : LifecycleInv s) : LifecycleInv t := by
  cases he with
  | write r v => exact lifecycleInv_memWrite h r v
  | read => exact h
  | reset => exact h

/-! ### The steps of a safe state -/

/-- LOP is legal whenever the engine's turn comes, so the completion step never faults (R82). -/
theorem step_engine_of_lifecycleInv (h : LifecycleInv s) (hr : s.resetLine = false) (he : engineTurn s = true) :
    ∃ c, step s = .next (completeCommand c s) := by
  obtain ⟨hbusy, -⟩ := engineTurn_eq_true.mp he
  obtain ⟨c, hc⟩ := Option.isSome_iff_exists.mp (h.1 hbusy).1
  exact ⟨c, by rw [step_engine hr he, complete_of_decodeOp hc]⟩

/-- On the host's turn a safe state performs the next action of its script, and stays safe. -/
theorem step_host_of_safeState {a : HostAction} {rest : List HostAction} (h : SafeState s)
    (hr : s.resetLine = false) (he : engineTurn s = false) (hs : s.script = a :: rest) :
    ∃ t, step s = .next t ∧ HostEffect a (hostTakes rest s) t ∧ SafeState t := by
  obtain ⟨hinv, hwf⟩ := h
  rw [hs] at hwf
  obtain ⟨t, ht, heffect, hwf'⟩ := hostAct_of_scriptWf (s := hostTakes rest s) a hwf
  exact ⟨t, by rw [step_host hr he hs, ht], heffect, heffect.lifecycleInv (lifecycleInv_hostTakes hinv rest), hwf'⟩

/-! ### A command in flight -/

/-- From `s` to `t` the phase, the latched command and the result registers stay. -/
structure SameCommand (s t : State) : Prop where
  phase : t.phase = s.phase
  lop : t.lop = s.lop
  ldin : t.ldin = s.ldin
  lkey : t.lkey = s.lkey
  results : resultRegs t = resultRegs s

theorem SameCommand.refl (s : State) : SameCommand s s := ⟨rfl, rfl, rfl, rfl, rfl⟩

theorem SameCommand.trans (hst : SameCommand s t) (htu : SameCommand t u) : SameCommand s u :=
  ⟨htu.phase.trans hst.phase, htu.lop.trans hst.lop, htu.ldin.trans hst.ldin, htu.lkey.trans hst.lkey,
    htu.results.trans hst.results⟩

theorem sameCommand_hostTakes (rest : List HostAction) (s : State) : SameCommand s (hostTakes rest s) := by
  constructor <;> rfl

/-- While BUSY no window write reaches the command in flight or its schedule: a CMD write is refused (R81, R88). -/
theorem memWrite_of_busy (hbusy : s.phase = .busy) (r : Reg) (v : Block) :
    SameCommand s (memWrite r v s) ∧ (memWrite r v s).wait = s.wait := by
  cases r with
  | cmd =>
    have he : memWrite .cmd v s = raise .commandWhileBusy s := commandWrite_busy hbusy v
    rw [he]
    exact ⟨by constructor <;> rfl, rfl⟩
  | din | key | status | dout | rk0 | rk1 | rk2 => exact ⟨by constructor <;> rfl, rfl⟩

/-- While BUSY a host action that is not the reset leaves the command in flight, and puts nothing new into the script. -/
theorem HostEffect.of_busy {a : HostAction} (he : HostEffect a s t) (hbusy : s.phase = .busy) (ha : a ≠ .reset) :
    SameCommand s t ∧ t.wait = s.wait ∧ t.resetLine = s.resetLine ∧ t.script ⊆ a :: s.script := by
  cases he with
  | write r v =>
    obtain ⟨hsame, hwait⟩ := memWrite_of_busy hbusy r v
    obtain ⟨-, -, -, hscript, hreset⟩ := memWrite_frame r v s
    exact ⟨hsame, hwait, hreset, hscript ▸ List.subset_cons_self _ _⟩
  | read r script hsub => exact ⟨by constructor <;> rfl, rfl, rfl, hsub⟩
  | reset ha' => exact absurd ha' ha

/-- A host step before the completion: the command stays in flight, and one host step less is left (R86). -/
theorem step_host_of_busy (h : SafeState s) (hbusy : s.phase = .busy) (hr : s.resetLine = false)
    (hnoreset : .reset ∉ s.script) (he : engineTurn s = false) :
    ∃ t, step s = .next t ∧ SafeState t ∧ SameCommand s t ∧ t.wait + 1 = s.wait ∧ t.resetLine = false ∧
      .reset ∉ t.script := by
  have hturn : ¬ (s.wait = 0 ∨ s.script = []) := fun hor =>
    Bool.false_ne_true (he.symm.trans (engineTurn_eq_true.mpr ⟨hbusy, hor⟩))
  obtain ⟨hwait, hscript⟩ := not_or.mp hturn
  obtain ⟨a, rest, hs⟩ := List.exists_cons_of_ne_nil hscript
  rw [hs] at hnoreset
  obtain ⟨t, hstep, heffect, hsafe⟩ := step_host_of_safeState h hr he hs
  obtain ⟨hsame, hwait', hreset, hsub⟩ :=
    heffect.of_busy hbusy fun ha => hnoreset (ha ▸ List.mem_cons_self)
  refine ⟨t, hstep, hsafe, (sameCommand_hostTakes rest s).trans hsame, ?_, hreset.trans hr,
    fun hmem => hnoreset (hsub hmem)⟩
  rw [hwait', hostTakes_wait, hbusy]
  exact Nat.sub_add_cancel (Nat.pos_of_ne_zero hwait)

/-- The command in flight in a safe state comes to its completion step within `wait` host steps (R86): induction on the
host steps left, each of which keeps the command. -/
theorem run_to_engineTurn (k : Nat) :
    ∀ {s : State}, s.wait = k → SafeState s → s.phase = .busy → s.resetLine = false → .reset ∉ s.script →
      ∃ n t, n ≤ k ∧ Sys2Proof.core.run n s = .next t ∧ engineTurn t = true ∧ SafeState t ∧
        t.resetLine = false ∧ SameCommand s t := by
  induction k with
  | zero =>
    intro s hwait hsafe hbusy hr _
    exact ⟨0, s, Nat.le_refl 0, run_zero s, engineTurn_eq_true.mpr ⟨hbusy, .inl hwait⟩, hsafe, hr,
      .refl s⟩
  | succ k ih =>
    intro s hwait hsafe hbusy hr hnoreset
    cases he : engineTurn s with
    | true => exact ⟨0, s, Nat.zero_le _, run_zero s, he, hsafe, hr, .refl s⟩
    | false =>
      obtain ⟨t, hstep, hsafe', hsame, hwait', hr', hnoreset'⟩ := step_host_of_busy hsafe hbusy hr hnoreset he
      obtain ⟨n, u, hn, hrun, hturn, hsafeu, hru, hsame'⟩ :=
        ih (by omega) hsafe' (hsame.phase.trans hbusy) hr' hnoreset'
      exact ⟨n + 1, u, Nat.succ_le_succ hn, (run_succ n hstep).trans hrun, hturn, hsafeu, hru, hsame.trans hsame'⟩

/-! ### The obligations -/

/-- Settles O57, by whose turn it is: the reset, the completion of a legal LOP, the next action of a script that reads
before its first `wrh`, or nothing. -/
theorem safeStatesNeverStop : Obligations.SafeStatesNeverStop := by
  intro s hsafe
  have ⟨hinv, hwf⟩ := hsafe
  cases hr : s.resetLine with
  | true => exact ⟨applyReset s, step_reset hr, lifecycleInv_applyReset s, hwf⟩
  | false =>
    cases he : engineTurn s with
    | true =>
      obtain ⟨c, hstep⟩ := step_engine_of_lifecycleInv hinv hr he
      refine ⟨completeCommand c s, hstep, lifecycleInv_completeCommand hinv c, ?_⟩
      rwa [completeCommand_hDefined, completeCommand_script]
    | false =>
      cases hs : s.script with
      | nil => exact ⟨s, step_waits hr he hs, hsafe⟩
      | cons a rest =>
        obtain ⟨t, hstep, -, hsafe'⟩ := step_host_of_safeState hsafe hr he hs
        exact ⟨t, hstep, hsafe'⟩

/-- Settles O28: the completion of the command in LOP is `commandOutputs` on the latches. -/
theorem completionCommitsTheLatchedCommand : Obligations.CompletionCommitsTheLatchedCommand := by
  intro s c hc
  rw [decodeCmd_zext16] at hc
  refine ⟨completeCommand c s, complete_of_decodeOp hc, ?_⟩
  rw [completeCommand_wait]
  exact completeCommand_eq c s

/-- Settles O30: the write leaves LOP, and the completion commutes with it. -/
theorem operandWritesDoNotAffectTheCommandInFlight : Obligations.OperandWritesDoNotAffectTheCommandInFlight := by
  intro s t v _ hcomplete
  obtain ⟨c, hc, rfl⟩ := complete_next hcomplete
  refine ⟨⟨{ s with din := v }, exec_wr .din v s, rfl, ?din⟩, ⟨{ s with key := v }, exec_wr .key v s, rfl, ?key⟩⟩
  case din => rw [complete_of_decodeOp (s := { s with din := v }) hc, completeCommand_set_din]
  case key => rw [complete_of_decodeOp (s := { s with key := v }) hc, completeCommand_set_key]

/-- Settles O58: the host steps up to the engine's turn keep the command, and LOP is legal there. -/
theorem acceptedCommandCompletes : Obligations.AcceptedCommandCompletes := by
  intro s hsafe hbusy hr hnoreset
  obtain ⟨n, t, hn, hrun, hturn, ⟨hinv, -⟩, hrt, hsame⟩ := run_to_engineTurn s.wait rfl hsafe hbusy hr hnoreset
  obtain ⟨c, hstep⟩ := step_engine_of_lifecycleInv hinv hrt hturn
  exact ⟨n, t, completeCommand c t, hn, hrun, hturn, hstep, hsame.lop, hsame.ldin, hsame.lkey, hsame.results,
    completeCommand_phase c t, completeCommand_done c t⟩

/-- Settles O11, by whether the read is free. -/
theorem busyResultReadIsAFreshDraw : Obligations.BusyResultReadIsAFreshDraw := by
  intro s t reg data hexec
  rw [exec_rd] at hexec
  injection hexec with ht
  rw [← ht, readIntoScratch_h, readIntoScratch_draws, memRead]
  constructor
  · rintro ⟨hbusy, hreg⟩
    rw [readIsFree_of_busy hbusy hreg]
    exact ⟨rfl, rfl⟩
  · intro hkept
    have hfree : readIsFree reg s = false :=
      hkept.elim (fun hidle => readIsFree_of_idle hidle reg) (fun hreg => readIsFree_of_no_result hreg s)
    rw [hfree]
    rfl

/-- Settles O19: the three outcomes of a CMD write. -/
theorem commandWriteRefusesOrAccepts : Obligations.CommandWriteRefusesOrAccepts := by
  intro s v
  rw [exec_wr]
  refine ⟨fun hbusy => ?busy, fun hidle hv => ?illegal, fun hidle hv => ?accepted⟩
  case busy => exact congrArg _ (commandWrite_busy hbusy v)
  case illegal => exact congrArg _ (commandWrite_illegal hidle hv)
  case accepted =>
    obtain ⟨c, hc⟩ := Option.ne_none_iff_exists'.mp hv
    exact ⟨accept v s, congrArg _ (commandWrite_accept hidle hc), rfl⟩

end Sys2Proof.Machine

/-! PROOFS. The family 41_galois.md: the GF(2^4) multiplier and the GFMUL command. A bit vector is read as a polynomial
over GF(2) and then as an element of GF(2)[z]/(z^4+z+1); the multiplier is the product there, and a nibble is determined
by its element, so the ring's laws are the multiplier's. -/

namespace Sys2Proof.Machine

open Polynomial

/-! ### Bit vectors as polynomials over GF(2) (R100) -/

/-- The polynomial of a bit vector: bit `i` is the coefficient of `X ^ i` (R100). -/
noncomputable def bitPoly {w : Nat} (v : BitVec w) : (ZMod 2)[X] :=
  ∑ i : Fin w, if v.getLsbD i then X ^ (i : Nat) else 0

theorem coeff_bitPoly {w : Nat} (v : BitVec w) (k : Nat) :
    (bitPoly v).coeff k = if v.getLsbD k then 1 else 0 := by
  have hterm : ∀ i : Fin w, (if v.getLsbD i then (X : (ZMod 2)[X]) ^ (i : Nat) else 0).coeff k =
      if k = i then (if v.getLsbD k then 1 else 0) else 0 := by
    intro i
    rw [apply_ite (coeff · k), coeff_X_pow, coeff_zero]
    by_cases hk : k = i
    · rw [if_pos hk, if_pos hk, hk]
    · rw [if_neg hk, if_neg hk, ite_self]
  simp only [bitPoly, finsetSum_coeff, hterm]
  by_cases hk : k < w
  · have hi : ∀ i : Fin w, k = i ↔ i = ⟨k, hk⟩ := fun i => by rw [Fin.ext_iff, eq_comm]
    simp [hi]
  · simp [BitVec.getLsbD_of_ge v k (Nat.le_of_not_lt hk)]

theorem bitPoly_injective {w : Nat} : Function.Injective (bitPoly (w := w)) := by
  intro u v h
  apply BitVec.eq_of_getLsbD_eq
  intro k _
  have hk := congrArg (coeff · k) h
  simp only [coeff_bitPoly] at hk
  cases hu : u.getLsbD k <;> cases hv : v.getLsbD k <;> simp [hu, hv] at hk ⊢

theorem degree_bitPoly_lt {w : Nat} (v : BitVec w) : (bitPoly v).degree < w := by
  rw [degree_lt_iff_coeff_zero]
  intro k hk
  simp [coeff_bitPoly, BitVec.getLsbD_of_ge v k hk]

theorem bitPoly_zero (w : Nat) : bitPoly (0 : BitVec w) = 0 := by
  ext k
  simp [coeff_bitPoly]

theorem bitPoly_one : bitPoly (1 : Nibble) = 1 := by
  simp [bitPoly]

/-- Exclusive-or is addition over GF(2). -/
theorem bitPoly_xor {w : Nat} (u v : BitVec w) : bitPoly (u ^^^ v) = bitPoly u + bitPoly v := by
  ext k
  simp only [coeff_add, coeff_bitPoly, BitVec.getLsbD_xor]
  cases u.getLsbD k <;> cases v.getLsbD k <;> decide

theorem bitPoly_setWidth_five (a : Nibble) : bitPoly (a.setWidth 5) = bitPoly a := by
  simp [bitPoly, Fin.sum_univ_four, Fin.sum_univ_five]

/-- The 5-bit shift of R101 is the product with z. -/
theorem bitPoly_shiftLeft_one (a : Nibble) : bitPoly (a.setWidth 5 <<< 1) = X * bitPoly a := by
  simp [bitPoly, Fin.sum_univ_four, Fin.sum_univ_five, mul_add, pow_succ']

theorem bitPoly_fieldPoly : bitPoly fieldPoly = X ^ 4 + X + 1 := by
  simp [bitPoly, fieldPoly, Fin.sum_univ_five, add_comm, add_assoc]

/-! ### Bit vectors as elements of GF(2)[z]/(z^4+z+1) -/

/-- GF(2)[z]/(z^4+z+1), the field polynomial being the model's FIELD_POLY. -/
abbrev NibbleField : Type := AdjoinRoot (bitPoly fieldPoly)

/-- The class of the indeterminate. -/
noncomputable abbrev fieldZ : NibbleField := AdjoinRoot.root (bitPoly fieldPoly)

/-- The element a bit vector stands for: its polynomial modulo the field polynomial. -/
noncomputable def fieldElt {w : Nat} (v : BitVec w) : NibbleField := AdjoinRoot.mk _ (bitPoly v)

theorem fieldElt_zero (w : Nat) : fieldElt (0 : BitVec w) = 0 := by
  rw [fieldElt, bitPoly_zero, map_zero]

theorem fieldElt_one : fieldElt (1 : Nibble) = 1 := by
  rw [fieldElt, bitPoly_one, map_one]

theorem fieldElt_xor {w : Nat} (u v : BitVec w) : fieldElt (u ^^^ v) = fieldElt u + fieldElt v := by
  simp only [fieldElt, bitPoly_xor, map_add]

theorem fieldElt_setWidth_five (a : Nibble) : fieldElt (a.setWidth 5) = fieldElt a := by
  simp only [fieldElt, bitPoly_setWidth_five]

theorem fieldElt_fieldPoly : fieldElt fieldPoly = 0 := AdjoinRoot.mk_self

theorem degree_bitPoly_fieldPoly : (bitPoly fieldPoly).degree = 4 := by
  rw [bitPoly_fieldPoly]
  compute_degree!

/-- A nibble is its own remainder (R100): no two nibbles stand for one element. -/
theorem fieldElt_injective : Function.Injective (fieldElt (w := 4)) := by
  intro x y h
  have hdvd : bitPoly fieldPoly ∣ bitPoly x - bitPoly y := AdjoinRoot.mk_eq_mk.mp h
  have hdegree : (bitPoly x - bitPoly y).degree < (bitPoly fieldPoly).degree := by
    rw [degree_bitPoly_fieldPoly]
    exact (degree_sub_le _ _).trans_lt (max_lt (degree_bitPoly_lt x) (degree_bitPoly_lt y))
  exact bitPoly_injective (sub_eq_zero.mp (eq_zero_of_dvd_of_degree_lt hdvd hdegree))

theorem mk_bitPoly (f : (ZMod 2)[X]) {w : Nat} (v : BitVec w) :
    AdjoinRoot.mk f (bitPoly v) = ∑ i : Fin w, if v.getLsbD i then AdjoinRoot.root f ^ (i : Nat) else 0 := by
  simp only [bitPoly, map_sum, apply_ite (AdjoinRoot.mk f), map_pow, map_zero, AdjoinRoot.mk_X]

/-! ### The multiplier (R101) -/

/-- The shift of R101 with its fold, on the nibble alone: z^4 = z + 1. -/
def mulByZ (a : Nibble) : Nibble := if a.getLsbD 3 then a <<< 1 ^^^ 0x3 else a <<< 1

/-- The fold of the 5-bit register clears bit 4, so the register is a nibble again (R101). -/
theorem setWidth_mulByZ : ∀ a : Nibble,
    (mulByZ a).setWidth 5 = if a.getLsbD 3 then a.setWidth 5 <<< 1 ^^^ fieldPoly else a.setWidth 5 <<< 1 := by
  decide

theorem low_setWidth_five : ∀ a : Nibble, (a.setWidth 5).extractLsb' 0 4 = a := by decide

/-- One turn of the loop: the operand is added where the bit of `y` is set, and multiplied by z. -/
theorem gfmulTurn_setWidth (y acc a : Nibble) (i : Nat) :
    gfmulTurn y (acc, a.setWidth 5) i = (if y.getLsbD i then acc ^^^ a else acc, (mulByZ a).setWidth 5) := by
  have hbit : (a.setWidth 5).getLsbD 3 = a.getLsbD 3 := by simp
  rw [setWidth_mulByZ]
  simp only [gfmulTurn, low_setWidth_five, hbit]

/-- The fold adds the field polynomial, which is 0, so the shift with its fold multiplies by z. -/
theorem fieldElt_mulByZ (a : Nibble) : fieldElt (mulByZ a) = fieldZ * fieldElt a := by
  have hshift : fieldElt (a.setWidth 5 <<< 1) = fieldZ * fieldElt a := by
    simp only [fieldElt, bitPoly_shiftLeft_one, map_mul, AdjoinRoot.mk_X]
  rw [← fieldElt_setWidth_five, setWidth_mulByZ]
  split
  · rw [fieldElt_xor, fieldElt_fieldPoly, add_zero, hshift]
  · exact hshift

theorem fieldElt_ite_xor (b : Prop) [Decidable b] (acc a : Nibble) :
    fieldElt (if b then acc ^^^ a else acc) = fieldElt acc + (if b then 1 else 0) * fieldElt a := by
  split
  · rw [fieldElt_xor, one_mul]
  · rw [zero_mul, add_zero]

/-- R100 from R101: the four turns add up the bits of `y`, each with its power of z. -/
theorem fieldElt_gfmul (x y : Nibble) : fieldElt (gfmul x y) = fieldElt x * fieldElt y := by
  have hy : fieldElt y = ∑ i : Fin 4, (if y.getLsbD i then 1 else 0) * fieldZ ^ (i : Nat) := by
    simp only [boole_mul]
    exact mk_bitPoly _ y
  have hturns : fieldElt (gfmul x y) =
      0 + (if y.getLsbD 0 then 1 else 0) * fieldElt x +
        (if y.getLsbD 1 then 1 else 0) * (fieldZ * fieldElt x) +
        (if y.getLsbD 2 then 1 else 0) * (fieldZ * (fieldZ * fieldElt x)) +
        (if y.getLsbD 3 then 1 else 0) * (fieldZ * (fieldZ * (fieldZ * fieldElt x))) := by
    simp only [gfmul, List.foldl_cons, List.foldl_nil, gfmulTurn_setWidth, fieldElt_ite_xor, fieldElt_mulByZ,
      fieldElt_zero]
  rw [hturns, hy, Fin.sum_univ_four]
  simp only [Fin.isValue, Fin.coe_ofNat_eq_mod]
  ring

/-! ### The laws (R103) -/

theorem gfmul_zero (x : Nibble) : gfmul x 0 = 0 :=
  fieldElt_injective (by rw [fieldElt_gfmul, fieldElt_zero, mul_zero])

theorem gfmul_one (x : Nibble) : gfmul x 1 = x :=
  fieldElt_injective (by rw [fieldElt_gfmul, fieldElt_one, mul_one])

theorem gfmul_comm (x y : Nibble) : gfmul x y = gfmul y x :=
  fieldElt_injective (by rw [fieldElt_gfmul, fieldElt_gfmul, mul_comm])

theorem gfmul_assoc (x y z : Nibble) : gfmul (gfmul x y) z = gfmul x (gfmul y z) :=
  fieldElt_injective (by simp only [fieldElt_gfmul, mul_assoc])

theorem gfmul_xor (x y z : Nibble) : gfmul x (y ^^^ z) = gfmul x y ^^^ gfmul x z :=
  fieldElt_injective (by simp only [fieldElt_gfmul, fieldElt_xor, mul_add])

/-- The inverses of R103, found among the sixteen nibbles. -/
theorem exists_gfmul_eq_one : ∀ x : Nibble, x ≠ 0 → ∃ y, gfmul x y = 1 := by decide

/-- A nonzero factor cancels: multiply by its inverse. -/
theorem gfmul_left_cancel {x y z : Nibble} (hx : x ≠ 0) (h : gfmul x y = gfmul x z) : y = z := by
  obtain ⟨x', hx'⟩ := exists_gfmul_eq_one x hx
  have hcancel : ∀ n, gfmul x' (gfmul x n) = n := fun n => by
    rw [← gfmul_assoc, gfmul_comm x' x, hx', gfmul_comm, gfmul_one]
  rw [← hcancel y, h, hcancel]

/-! ### A command from IDLE to its result (40_engine_control.md R81, R82) -/

variable {s : State}

theorem exec_command_of_idle (hidle : s.phase = .idle) (c : Command) (ign : BitVec 12) :
    exec (c.instr ign) s = .next (accept (cmdWord c ign) s) := by
  rw [exec_command, commandWrite_accept hidle (decodeCmd_cmdWord c ign)]

/-- The accepted state, the schedule's draw aside (R81). -/
theorem accept_cmdWord (c : Command) (ign : BitVec 12) (s : State) :
    accept (cmdWord c ign) s = { s with
      lop := c.opcode, ldin := s.din, lkey := s.key, phase := .busy, done := false,
      wait := (accept (cmdWord c ign) s).wait, draws := (accept (cmdWord c ign) s).draws } := by
  rw [← opField_cmdWord c ign]; rfl

/-- The command accepted is the one that completes (R82). -/
theorem complete_accept_cmdWord (c : Command) (ign : BitVec 12) (s : State) :
    complete (accept (cmdWord c ign) s) = .next (completeCommand c (accept (cmdWord c ign) s)) :=
  complete_of_decodeOp (by rw [accept_lop, opField_cmdWord, decodeOp_opcode])

/-! ### The obligations -/

/-- Settles O43: the two polynomials stand for one element of GF(2)[z]/(z^4+z+1). -/
theorem gfmulIsTheFieldProduct : Obligations.GfmulIsTheFieldProduct := by
  intro x y
  have hprod : AdjoinRoot.mk (bitPoly fieldPoly) (bitPoly x * bitPoly y) =
      AdjoinRoot.mk (bitPoly fieldPoly) (bitPoly (gfmul x y)) := by
    rw [map_mul]
    exact (fieldElt_gfmul x y).symm
  rw [← bitPoly_fieldPoly]
  exact AdjoinRoot.mk_eq_mk.mp hprod

/-- Settles O25: the acceptance, and the completion of the command it latched. -/
theorem gfmulMultipliesTheTwoLowNibbles : Obligations.GfmulMultipliesTheTwoLowNibbles := by
  intro ign s hidle
  exact ⟨_, _, exec_command_of_idle hidle .gfmul ign, accept_cmdWord .gfmul ign s,
    complete_accept_cmdWord .gfmul ign s, rfl⟩

/-- Settles O44: no zero divisors and unique inverses by cancelling a nonzero factor. -/
theorem gfmulIsAFieldMultiplication : Obligations.GfmulIsAFieldMultiplication := by
  refine ⟨fun x => ⟨gfmul_zero x, gfmul_one x⟩, gfmul_comm, gfmul_assoc, gfmul_xor, fun x y h => ?_, fun x hx => ?_⟩
  · by_cases hx : x = 0
    · exact .inl hx
    · exact .inr (gfmul_left_cancel hx (h.trans (gfmul_zero x).symm))
  · obtain ⟨y, hy⟩ := exists_gfmul_eq_one x hx
    exact ⟨y, hy, fun z hz => gfmul_left_cancel hx (hz.trans hy.symm)⟩

end Sys2Proof.Machine

/-! PROOFS. The family 42_state_substitution.md: the nibble matrix of a block, the S-box tables, and the SBOX and SBOXINV
commands. A table that is a permutation is injective on the nibbles, so each nibble has one preimage and the inverse table
holds it; the round trips on states and blocks are the nibbles', place by place. -/

namespace Sys2Proof.Machine

/-! ### The nibble matrix of a block (R110 to R112) -/

theorem append_nibbles (b : Block) : nib3 b ++ nib2 b ++ nib1 b ++ nib0 b = b := by
  have h32 : nib3 b ++ nib2 b = highByte b :=
    BitVec.extractLsb'_append_extractLsb'_eq_extractLsb' rfl
  have h10 : nib1 b ++ nib0 b = lowByte b :=
    BitVec.extractLsb'_append_extractLsb'_eq_extractLsb' rfl
  calc nib3 b ++ nib2 b ++ nib1 b ++ nib0 b
      = (nib3 b ++ nib2 b) ++ (nib1 b ++ nib0 b) := BitVec.append_assoc
    _ = b := by rw [h32, h10, highByte_append_lowByte]

@[simp] theorem stateToBlock_blockToState (b : Block) : stateToBlock (blockToState b) = b := append_nibbles b

/-! The nibble at a place of a joined block: the places to its right are dropped one by one. -/

@[simp] theorem nib0_stateToBlock (s : NibbleMatrix) : nib0 (stateToBlock s) = s.s11 :=
  low_of_append (s.s00 ++ s.s01 ++ s.s10) s.s11

@[simp] theorem nib1_stateToBlock (s : NibbleMatrix) : nib1 (stateToBlock s) = s.s10 :=
  calc nib1 (stateToBlock s)
      = (s.s00 ++ s.s01 ++ s.s10).extractLsb' 0 4 := BitVec.extractLsb'_append_eq_of_le le_rfl
    _ = s.s10 := low_of_append (s.s00 ++ s.s01) s.s10

@[simp] theorem nib2_stateToBlock (s : NibbleMatrix) : nib2 (stateToBlock s) = s.s01 :=
  calc nib2 (stateToBlock s)
      = (s.s00 ++ s.s01 ++ s.s10).extractLsb' 4 4 := BitVec.extractLsb'_append_eq_of_le (by decide)
    _ = (s.s00 ++ s.s01).extractLsb' 0 4 := BitVec.extractLsb'_append_eq_of_le le_rfl
    _ = s.s01 := low_of_append s.s00 s.s01

@[simp] theorem nib3_stateToBlock (s : NibbleMatrix) : nib3 (stateToBlock s) = s.s00 :=
  calc nib3 (stateToBlock s)
      = (s.s00 ++ s.s01 ++ s.s10).extractLsb' 8 4 := BitVec.extractLsb'_append_eq_of_le (by decide)
    _ = (s.s00 ++ s.s01).extractLsb' 4 4 := BitVec.extractLsb'_append_eq_of_le (by decide)
    _ = s.s00 := high_of_append s.s00 s.s01

@[simp] theorem blockToState_stateToBlock (s : NibbleMatrix) : blockToState (stateToBlock s) = s :=
  NibbleMatrix.ext (nib3_stateToBlock s) (nib2_stateToBlock s) (nib1_stateToBlock s) (nib0_stateToBlock s)

/-! ### Lookups in a permutation (R114, R115) -/

/-- The nibbles in order, as the search for a preimage goes through them. -/
def nibbles : List Nibble := (List.range 16).map (BitVec.ofNat 4)

theorem mem_nibbles : ∀ n : Nibble, n ∈ nibbles := by decide

theorem entries_eq_map_lookup (box : SboxTable) : box.entries = nibbles.map (lookup box) := rfl

variable {box : SboxTable}

/-- A table that is a permutation maps no two nibbles to one. -/
theorem lookup_injective (hwf : box.wf = true) : Function.Injective (lookup box) := by
  have hnodup : (nibbles.map (lookup box)).Nodup := by
    rw [← entries_eq_map_lookup]
    exact of_decide_eq_true hwf
  intro m n h
  exact List.inj_on_of_nodup_map hnodup (mem_nibbles m) (mem_nibbles n) h

theorem preimage_eq_find (box : SboxTable) (n : Nibble) :
    preimage box n = nibbles.find? fun m => lookup box m == n := rfl

theorem lookup_of_preimage {m n : Nibble} (h : preimage box n = some m) : lookup box m = n := by
  rw [preimage_eq_find] at h
  simpa using List.find?_some h

/-- In a permutation the search finds a preimage: an injective map of the nibbles reaches them all. -/
theorem exists_preimage (hwf : box.wf = true) (n : Nibble) : ∃ m, preimage box n = some m := by
  obtain ⟨m, hm⟩ := Finite.surjective_of_injective (lookup_injective hwf) n
  rw [preimage_eq_find, ← Option.isSome_iff_exists, List.find?_isSome]
  exact ⟨m, mem_nibbles m, beq_iff_eq.mpr hm⟩

theorem row_append_col : ∀ n : Nibble, n.extractLsb' 2 2 ++ n.extractLsb' 0 2 = n := by decide

theorem lookup_inverseTable (box : SboxTable) (n : Nibble) :
    lookup (inverseTable box) n = (preimage box n).getD 0 :=
  congrArg (fun k => (preimage box k).getD 0) (row_append_col n)

theorem lookup_lookup_inverseTable (hwf : box.wf = true) (n : Nibble) :
    lookup box (lookup (inverseTable box) n) = n := by
  obtain ⟨m, hm⟩ := exists_preimage hwf n
  rw [lookup_inverseTable, hm, Option.getD_some, lookup_of_preimage hm]

theorem lookup_inverseTable_lookup (hwf : box.wf = true) (n : Nibble) :
    lookup (inverseTable box) (lookup box n) = n :=
  lookup_injective hwf (lookup_lookup_inverseTable hwf (lookup box n))

/-! ### Substitution in a state and in a block (R116, R117, R119) -/

/-- The four nibbles of a block, each substituted in place (R117). -/
theorem subBlock_eq_append (box : SboxTable) (b : Block) :
    subBlock box b =
      lookup box (nib3 b) ++ lookup box (nib2 b) ++ lookup box (nib1 b) ++ lookup box (nib0 b) := rfl

/-- Where one table undoes another on nibbles, it does on states. -/
theorem subNibbles_cancel {undo box : SboxTable} (h : ∀ n, lookup undo (lookup box n) = n) (s : NibbleMatrix) :
    subNibbles undo (subNibbles box s) = s :=
  NibbleMatrix.ext (h s.s00) (h s.s01) (h s.s10) (h s.s11)

/-- Where one table undoes another on nibbles, it does on blocks. -/
theorem subBlock_cancel {undo box : SboxTable} (h : ∀ n, lookup undo (lookup box n) = n) (b : Block) :
    subBlock undo (subBlock box b) = b := by
  unfold subBlock
  rw [blockToState_stateToBlock, subNibbles_cancel h, stateToBlock_blockToState]

theorem wf_sboxFwd : sboxFwd.wf = true := by decide

/-! ### The obligations -/

/-- Settles O27: the acceptance and the completion of the command it latched; the default table is a permutation, so it
undoes its inverse on blocks. -/
theorem sboxinvUndoesSboxNibbleByNibble : Obligations.SboxinvUndoesSboxNibbleByNibble := by
  intro ign s hidle
  exact ⟨_, _, exec_command_of_idle hidle .sboxinv ign, accept_cmdWord .sboxinv ign s,
    complete_accept_cmdWord .sboxinv ign s, by rw [← subBlock_eq_append]; rfl,
    subBlock_cancel (lookup_lookup_inverseTable wf_sboxFwd) s.din⟩

/-- Settles O46: the two tables undo each other; the entries of the default one's inverse are computed. -/
theorem inverseTableInvertsEveryPermutation : Obligations.InverseTableInvertsEveryPermutation := by
  refine ⟨fun box hwf m n => ⟨?_, ?_⟩, by decide⟩
  · rintro rfl
    exact lookup_lookup_inverseTable hwf n
  · rintro rfl
    exact lookup_inverseTable_lookup hwf m

/-- Settles O47: the round trips of the nibbles carry over to states and blocks. -/
theorem substitutionRoundTrips : Obligations.SubstitutionRoundTrips := by
  intro box hwf
  have hleft := lookup_inverseTable_lookup hwf
  have hright := lookup_lookup_inverseTable hwf
  exact ⟨fun n => ⟨hleft n, hright n⟩,
    fun s => ⟨subNibbles_cancel hleft s, subNibbles_cancel hright s⟩,
    fun b => ⟨subBlock_cancel hleft b, subBlock_cancel hright b⟩⟩

/-- Settles O26: the acceptance, and the completion of the command it latched. -/
theorem sboxSubstitutesTheFourNibbles : Obligations.SboxSubstitutesTheFourNibbles := by
  intro ign s hidle
  exact ⟨_, _, exec_command_of_idle hidle .sbox ign, accept_cmdWord .sbox ign s,
    complete_accept_cmdWord .sbox ign s, by rw [← subBlock_eq_append]; rfl⟩

/-- Settles O45: a block is its four nibbles, and each nibble stands at its place. -/
theorem blockAndStateAreMutualInverses : Obligations.BlockAndStateAreMutualInverses :=
  ⟨stateToBlock_blockToState, blockToState_stateToBlock⟩

end Sys2Proof.Machine

/-! PROOFS. The family 43_linear_layers.md: ShiftRows, MixColumns, their inverses and AddRoundKey. MixColumns is a matrix
product over GF(2^4), and the product is associative, so two mixings in a row are one mixing by the product of their
matrices; AddRoundKey is an exclusive-or in each place. -/

namespace Sys2Proof.Machine

variable (s : NibbleMatrix)

/-! ### ShiftRows (R130 to R132) -/

/-- With two entries in a row, left and right rotation are one swap (R131). -/
theorem shiftRowsInverse_eq_shiftRows : shiftRowsInverse s = shiftRows s := rfl

theorem shiftRows_shiftRows : shiftRows (shiftRows s) = s := rfl

theorem nib3_append_nib2 (b : Block) : nib3 b ++ nib2 b = highByte b :=
  BitVec.extractLsb'_append_extractLsb'_eq_extractLsb' rfl

theorem stateToBlock_shiftRows : stateToBlock (shiftRows s) = blockSR (stateToBlock s) := by
  rw [blockSR, ← nib3_append_nib2]
  simp only [nib3_stateToBlock, nib2_stateToBlock, nib1_stateToBlock, nib0_stateToBlock]
  rfl

/-! ### The product of a matrix with the columns of a state (R133, R134) -/

theorem zero_gfmul (x : Nibble) : gfmul 0 x = 0 := by
  rw [gfmul_comm, gfmul_zero]

theorem one_gfmul (x : Nibble) : gfmul 1 x = x := by
  rw [gfmul_comm, gfmul_one]

theorem gfmul_row_one_zero (x y : Nibble) : gfmul 1 x ^^^ gfmul 0 y = x := by
  rw [one_gfmul, zero_gfmul]
  exact BitVec.xor_zero

theorem gfmul_row_zero_one (x y : Nibble) : gfmul 0 x ^^^ gfmul 1 y = y := by
  rw [BitVec.xor_comm, gfmul_row_one_zero]

theorem mulColumns_one : mulColumns ⟨1, 0, 0, 1⟩ s = s :=
  NibbleMatrix.ext (gfmul_row_one_zero ..) (gfmul_row_one_zero ..) (gfmul_row_zero_one ..) (gfmul_row_zero_one ..)

/-- One entry of the associativity of the product: a row `(a, b)` times the matrix with the columns `(c, e)` and `(d, f)`
times a column `(x, y)`. -/
theorem gfmul_row_assoc (a b c d e f x y : Nibble) :
    gfmul a (gfmul c x ^^^ gfmul d y) ^^^ gfmul b (gfmul e x ^^^ gfmul f y) =
      gfmul (gfmul a c ^^^ gfmul b e) x ^^^ gfmul (gfmul a d ^^^ gfmul b f) y := by
  apply fieldElt_injective
  simp only [fieldElt_gfmul, fieldElt_xor]
  ring

theorem mulColumns_assoc (m n s : NibbleMatrix) :
    mulColumns m (mulColumns n s) = mulColumns (mulColumns m n) s := by
  ext1 <;> apply gfmul_row_assoc

/-- Where the product of two matrices is the identity, mixing by the one undoes mixing by the other. -/
theorem mulColumns_cancel {m n : NibbleMatrix} (h : mulColumns m n = ⟨1, 0, 0, 1⟩) :
    mulColumns m (mulColumns n s) = s := by
  rw [mulColumns_assoc, h, mulColumns_one]

/-! ### MixColumns (R133 to R137) -/

theorem mulColumns_mixMatrix_mixInvMatrix : mulColumns mixMatrix mixInvMatrix = ⟨1, 0, 0, 1⟩ := by decide

theorem mulColumns_mixInvMatrix_mixMatrix : mulColumns mixInvMatrix mixMatrix = ⟨1, 0, 0, 1⟩ := by decide

/-- The factors 1 of MIX drop out (R133). -/
theorem mixColumns_eq :
    mixColumns s =
      { s00 := s.s00 ^^^ gfmul 4 s.s10, s01 := s.s01 ^^^ gfmul 4 s.s11,
        s10 := gfmul 4 s.s00 ^^^ s.s10, s11 := gfmul 4 s.s01 ^^^ s.s11 } := by
  simp only [mixColumns, mulColumns, mixMatrix, one_gfmul]

theorem stateToBlock_mixColumns : stateToBlock (mixColumns s) = blockMC (stateToBlock s) := by
  rw [mixColumns_eq, blockMC]
  simp only [nib3_stateToBlock, nib2_stateToBlock, nib1_stateToBlock, nib0_stateToBlock]
  rfl

theorem stateToBlock_mixColumnsInverse : stateToBlock (mixColumnsInverse s) = blockMCI (stateToBlock s) := by
  rw [blockMCI]
  simp only [nib3_stateToBlock, nib2_stateToBlock, nib1_stateToBlock, nib0_stateToBlock]
  rfl

/-! ### AddRoundKey (R138) -/

theorem stateToBlock_addRoundKey (k : Block) : stateToBlock (addRoundKey s k) = stateToBlock s ^^^ k :=
  stateToBlock_blockToState _

theorem addRoundKey_addRoundKey (k : Block) : addRoundKey (addRoundKey s k) k = s :=
  calc addRoundKey (addRoundKey s k) k
      = blockToState (stateToBlock s ^^^ k ^^^ k) := by rw [addRoundKey, stateToBlock_addRoundKey]
    _ = s := by rw [BitVec.xor_assoc, BitVec.xor_self, BitVec.xor_zero, blockToState_stateToBlock]

theorem blockToState_xor (a b : Block) :
    blockToState (a ^^^ b) = ⟨nib3 a ^^^ nib3 b, nib2 a ^^^ nib2 b, nib1 a ^^^ nib1 b, nib0 a ^^^ nib0 b⟩ := by
  ext1 <;> exact BitVec.extractLsb'_xor

/-- The whole-block exclusive-or is the nibble-wise one (R138; 90_conflicts.md C2). -/
theorem addRoundKey_eq (k : Block) :
    addRoundKey s k = ⟨s.s00 ^^^ nib3 k, s.s01 ^^^ nib2 k, s.s10 ^^^ nib1 k, s.s11 ^^^ nib0 k⟩ := by
  rw [addRoundKey, blockToState_xor, nib3_stateToBlock, nib2_stateToBlock, nib1_stateToBlock, nib0_stateToBlock]

/-! ### The obligations -/

/-- Settles O48: ShiftRows is an involution, MIX and MIXINV are inverse matrices, and the key cancels itself. -/
theorem linearLayersAreInvertible : Obligations.LinearLayersAreInvertible :=
  ⟨fun s => ⟨shiftRows_shiftRows s, shiftRows_shiftRows s, shiftRowsInverse_eq_shiftRows s⟩,
    mulColumns_mixMatrix_mixInvMatrix, mulColumns_mixInvMatrix_mixMatrix,
    fun s => ⟨mulColumns_cancel s mulColumns_mixInvMatrix_mixMatrix,
      mulColumns_cancel s mulColumns_mixMatrix_mixInvMatrix⟩,
    addRoundKey_addRoundKey⟩

/-- Settles O49: each layer's nibbles, read off the joined block. -/
theorem linearLayersHaveTheirBlockForms : Obligations.LinearLayersHaveTheirBlockForms :=
  ⟨stateToBlock_shiftRows, stateToBlock_mixColumns, stateToBlock_mixColumnsInverse, stateToBlock_addRoundKey,
    addRoundKey_eq⟩

/-- Settles O50: the product with MIX, written out by columns. -/
theorem mixColumnsMixesEachColumn : Obligations.MixColumnsMixesEachColumn := mixColumns_eq

end Sys2Proof.Machine

/-! PROOFS. The family 44_key_schedule.md: the key schedule and the KEYEXP command. The first round key is the cipher key,
its two bytes joined again (`keyExpansion_fst`), so a KEYEXP shows the latched key in RK0. -/

namespace Sys2Proof.Machine

/-! ### The schedule's words (R145 to R149) -/

theorem rotateWord_eq (w : KeyWord) : rotateWord w = w.extractLsb' 0 4 ++ w.extractLsb' 4 4 := rfl

theorem subWord_eq (box : SboxTable) (w : KeyWord) :
    subWord box w = lookup box (w.extractLsb' 4 4) ++ lookup box (w.extractLsb' 0 4) := rfl

/-! ### KEYEXP at completion (R151) -/

/-- The round keys committed, RK0 as the latched key itself; the other fields but the lifecycle's stay. -/
theorem completeKeyexp_eq (s : State) :
    completeKeyexp s = { s with
      rk0 := s.lkey, rk1 := (keyExpansion sboxFwd s.lkey).2.1, rk2 := (keyExpansion sboxFwd s.lkey).2.2,
      phase := .idle, done := true, wait := 0 } := by
  rw [completeKeyexp, commitRoundKeys, keyExpansion_fst]
  rfl

/-! ### The obligations -/

/-- Settles O24: the acceptance, and the completion of the command it latched on the key it latched. -/
theorem keyexpWritesTheThreeRoundKeys : Obligations.KeyexpWritesTheThreeRoundKeys := by
  intro ign s hidle
  exact ⟨_, _, exec_command_of_idle hidle .keyexp ign, accept_cmdWord .keyexp ign s,
    complete_accept_cmdWord .keyexp ign s, completeKeyexp_eq (accept (cmdWord .keyexp ign) s)⟩

/-- Settles O51: the words are those `keyExpansion` names, from the two bytes of the key on; joined again, these two bytes
are the key. -/
theorem keyExpansionFollowsTheSchedule : Obligations.KeyExpansionFollowsTheSchedule := by
  refine ⟨rotateWord_eq, subWord_eq, fun box k => ?_⟩
  exact ⟨highByte k, lowByte k, _, _, _, _, rfl, rfl, rfl, rfl, rfl, rfl, rfl, keyExpansion_fst box k⟩

end Sys2Proof.Machine

/-! PROOFS. The family 45_round_sequence.md: the round sequence and the ENC and DEC commands. Each round of `decrypt` undoes
one round of `encrypt`, the last one first: the same round key cancels, MixColumnsInverse undoes MixColumns, and the
inverse table undoes the S-box. -/

namespace Sys2Proof.Machine

variable {box : SboxTable}

/-! ### The round sequence on blocks (R160) -/

theorem stateToBlock_subNibbles (box : SboxTable) (s : NibbleMatrix) :
    stateToBlock (subNibbles box s) = subBlock box (stateToBlock s) := by
  rw [subBlock, blockToState_stateToBlock]

/-! ### The rounds undone (R161, R162) -/

theorem mixColumnsInverse_mixColumns (s : NibbleMatrix) : mixColumnsInverse (mixColumns s) = s :=
  mulColumns_cancel s mulColumns_mixInvMatrix_mixMatrix

/-- ShiftRows moves nibbles and the S-box changes each in place; both are undone in reverse order. -/
theorem subNibbles_inverseTable_shiftRows_cancel (hwf : box.wf = true) (s : NibbleMatrix) :
    subNibbles (inverseTable box) (shiftRowsInverse (shiftRows (subNibbles box s))) = s := by
  rw [shiftRowsInverse_eq_shiftRows, shiftRows_shiftRows, subNibbles_cancel (lookup_inverseTable_lookup hwf)]

/-- Round 1, which has a MixColumns, undone. -/
theorem mixedRound_cancel (hwf : box.wf = true) (s : NibbleMatrix) (k : Block) :
    subNibbles (inverseTable box) (shiftRowsInverse (mixColumnsInverse
      (addRoundKey (addRoundKey (mixColumns (shiftRows (subNibbles box s))) k) k))) = s := by
  rw [addRoundKey_addRoundKey, mixColumnsInverse_mixColumns, subNibbles_inverseTable_shiftRows_cancel hwf]

/-- Round 2, which has none, undone. -/
theorem unmixedRound_cancel (hwf : box.wf = true) (s : NibbleMatrix) (k : Block) :
    subNibbles (inverseTable box) (shiftRowsInverse
      (addRoundKey (addRoundKey (shiftRows (subNibbles box s)) k) k)) = s := by
  rw [addRoundKey_addRoundKey, subNibbles_inverseTable_shiftRows_cancel hwf]

theorem decrypt_encrypt (hwf : box.wf = true) (p k : Block) : decrypt box (encrypt box p k) k = p := by
  dsimp only [decrypt, encrypt]
  rw [blockToState_stateToBlock, unmixedRound_cancel hwf, mixedRound_cancel hwf, addRoundKey_addRoundKey,
    stateToBlock_blockToState]

/-! ### The obligations -/

/-- Settles O52: each layer in its block form, from the last key addition inwards. -/
theorem encryptHasItsBlockForm : Obligations.EncryptHasItsBlockForm := by
  intro box p k
  simp only [encrypt, stateToBlock_addRoundKey, stateToBlock_shiftRows, stateToBlock_mixColumns,
    stateToBlock_subNibbles, stateToBlock_blockToState]

/-- Settles O53: with a left inverse encryption is injective and decryption surjective, and the blocks are finite. -/
theorem decryptUndoesEncrypt : Obligations.DecryptUndoesEncrypt := by
  intro box hwf
  refine ⟨decrypt_encrypt hwf, fun k => ?_⟩
  have hleft : Function.LeftInverse (fun c => decrypt box c k) (fun p => encrypt box p k) :=
    fun p => decrypt_encrypt hwf p k
  exact ⟨Finite.injective_iff_bijective.mp hleft.injective, Finite.surjective_iff_bijective.mp hleft.surjective⟩

/-- Settles O60: both commands latch the same KEY, so the second result is the decryption of the encryption of DIN. -/
theorem encThenDecRestoresTheBlock : Obligations.EncThenDecRestoresTheBlock := by
  intro s ign ign' hidle
  refine ⟨_, _, _, _, _, exec_command_of_idle hidle .enc ign, complete_accept_cmdWord .enc ign s, exec_wr .din _ _,
    exec_command_of_idle ?idle .dec ign', complete_accept_cmdWord .dec ign' _, ?dout, ?key, ?roundKeys⟩
  case idle => exact completeCommand_phase .enc (accept (cmdWord .enc ign) s)
  case dout => exact decrypt_encrypt wf_sboxFwd s.din s.key
  case key => rfl
  case roundKeys => rfl

/-- Settles O22: the acceptance, and the completion of the command it latched. -/
theorem encEncryptsTheLatchedOperands : Obligations.EncEncryptsTheLatchedOperands := by
  intro ign s hidle
  exact ⟨_, _, exec_command_of_idle hidle .enc ign, accept_cmdWord .enc ign s,
    complete_accept_cmdWord .enc ign s, rfl⟩

/-- Settles O23: the acceptance, and the completion of the command it latched. -/
theorem decDecryptsTheLatchedOperands : Obligations.DecDecryptsTheLatchedOperands := by
  intro ign s hidle
  exact ⟨_, _, exec_command_of_idle hidle .dec ign, accept_cmdWord .dec ign s,
    complete_accept_cmdWord .dec ign s, rfl⟩

end Sys2Proof.Machine

/-! PROOFS. The family 60_exceptions.md: the error bits of the command interface. First what a window write does to ILL and
OVR, then what a step does to them, then the obligations. -/

namespace Sys2Proof.Machine

variable {s t : State}

/-! ### The error bits after a window write (R81, R182, R25) -/

theorem commandWrite_ill (v : Block) (s : State) :
    (commandWrite v s).ill = if s.phase = .idle ∧ decodeCmd v = none then true else s.ill := by
  rcases commandWrite_cases v s with ⟨hp, he⟩ | ⟨hp, hv, he⟩ | ⟨hp, hv, he⟩
  · simp [he, hp]
  · simp [he, hp, hv]
  · simp [he, Option.isSome_iff_ne_none.mp hv]

theorem commandWrite_ovr (v : Block) (s : State) :
    (commandWrite v s).ovr = if s.phase = .busy then true else s.ovr := by
  rcases commandWrite_cases v s with ⟨hp, he⟩ | ⟨hp, -, he⟩ | ⟨hp, -, he⟩ <;> simp [he, hp]

/-- A write of STATUS may clear ILL, a write of CMD may set it, and no other window write reaches it. -/
theorem memWrite_ill (r : Reg) (v : Block) (s : State) :
    (memWrite r v s).ill =
      if r = .status ∧ v.getLsbD 2 = true then false
      else if r = .cmd ∧ s.phase = .idle ∧ decodeCmd v = none then true
      else s.ill := by
  cases r with
  | cmd =>
    have he : memWrite .cmd v s = commandWrite v s := rfl
    simp only [he, commandWrite_ill, reduceCtorEq, false_and, true_and, if_false]
  | status =>
    have he : memWrite .status v s = statusWrite v s := rfl
    simp only [he, statusWrite_eq, reduceCtorEq, false_and, true_and, if_false]
  | din | key | dout | rk0 | rk1 | rk2 => rfl

/-- A write of STATUS may clear OVR, a write of CMD may set it, and no other window write reaches it. -/
theorem memWrite_ovr (r : Reg) (v : Block) (s : State) :
    (memWrite r v s).ovr =
      if r = .status ∧ v.getLsbD 3 = true then false
      else if r = .cmd ∧ s.phase = .busy then true
      else s.ovr := by
  cases r with
  | cmd =>
    have he : memWrite .cmd v s = commandWrite v s := rfl
    simp only [he, commandWrite_ovr, reduceCtorEq, false_and, true_and, if_false]
  | status =>
    have he : memWrite .status v s = statusWrite v s := rfl
    simp only [he, statusWrite_eq, reduceCtorEq, false_and, true_and, if_false]
  | din | key | dout | rk0 | rk1 | rk2 => rfl

/-- A bit that these two choices turn off is turned off by the first. -/
theorem clears_of_ite {clears sets : Prop} [Decidable clears] [Decidable sets] {b : Bool} (hset : b = true)
    (h : (if clears then false else if sets then true else b) = false) : clears := by
  by_contra hc
  rw [if_neg hc, hset, ite_self] at h
  cases h

/-- A bit that these two choices turn on is turned on by the second. -/
theorem sets_of_ite {clears sets : Prop} [Decidable clears] [Decidable sets] {b : Bool} (hclear : b = false)
    (h : (if clears then false else if sets then true else b) = true) : sets := by
  by_contra hs
  rw [if_neg hs, hclear, ite_self] at h
  cases h

/-! ### The error bits across a step (R183) -/

/-- A step that is not the reset keeps both error bits, or it is a host write and does to them what `memWrite` does. -/
theorem step_errorBits (h : step s = .next t) (hr : s.resetLine = false) :
    (t.ill = s.ill ∧ t.ovr = s.ovr) ∨
    ∃ r v, nextHostWrite s = some (r, v) ∧ t.ill = (memWrite r v s).ill ∧ t.ovr = (memWrite r v s).ovr := by
  rcases step_cases_engine h hr with ⟨-, c, -, rfl⟩ | ⟨-, r, v, rest, hw, rfl⟩ | ⟨-, -, hsame⟩
  · exact .inl ⟨completeCommand_ill c s, completeCommand_ovr c s⟩
  · refine .inr ⟨r, v, hw, ?_, ?_⟩
    · rw [memWrite_ill, memWrite_ill, hostTakes_phase, hostTakes_ill]
    · rw [memWrite_ovr, memWrite_ovr, hostTakes_phase, hostTakes_ovr]
  · exact .inl ⟨hsame.ill, hsame.ovr⟩

/-! ### The obligations -/

/-- Settles O32: of the host's writes only that of STATUS clears an error bit, and no other step reaches one. -/
theorem errorBitsAreSticky : Obligations.ErrorBitsAreSticky := by
  intro s t hstep hr
  rcases step_errorBits hstep hr with ⟨hill, hovr⟩ | ⟨r, v, hw, hill, hovr⟩
  · simp +contextual [hill, hovr]
  · rw [hill, hovr, memWrite_ill, memWrite_ovr]
    refine ⟨fun hset hcleared => ?ill, fun hset hcleared => ?ovr⟩
    case ill =>
      obtain ⟨rfl, hbit⟩ := clears_of_ite hset hcleared
      exact ⟨v, hw, hbit⟩
    case ovr =>
      obtain ⟨rfl, hbit⟩ := clears_of_ite hset hcleared
      exact ⟨v, hw, hbit⟩

/-- Settles O33: the reset clears both error bits, of the host's writes only that of CMD sets one, and no other step
reaches one. -/
theorem errorsComeFromCmdWritesOnly : Obligations.ErrorsComeFromCmdWritesOnly := by
  intro s t hstep
  cases hr : s.resetLine with
  | true =>
    rw [step_reset hr] at hstep
    injection hstep with ht
    simp [← ht]
  | false =>
    rcases step_errorBits hstep hr with ⟨hill, hovr⟩ | ⟨r, v, hw, hill, hovr⟩
    · simp +contextual [hill, hovr]
    · rw [hill, hovr, memWrite_ill, memWrite_ovr]
      refine ⟨fun hclear hraised => ?ill, fun hclear hraised => ?ovr⟩
      case ill =>
        obtain ⟨rfl, hidle, hv⟩ := sets_of_ite hclear hraised
        exact ⟨v, hw, hidle, hv⟩
      case ovr =>
        obtain ⟨rfl, hbusy⟩ := sets_of_ite hclear hraised
        exact ⟨v, hw, hbusy⟩

/-- Settles O20: each of the words is a write of CMD, which is refused while BUSY before its opcode is looked at. -/
theorem commandWhileBusySetsOnlyOvr : Obligations.CommandWhileBusySetsOnlyOvr := by
  constructor
  · intro s c ign hbusy
    rw [exec_command, commandWrite_busy hbusy]
    rfl
  · intro s v hbusy
    have hrun : runWord (.cmdw v) s = .next (commandWrite v s) := runWord_write (w := .cmdw v) rfl s
    rw [hrun, commandWrite_busy hbusy]
    rfl

/-- Settles O38: while IDLE the step is not the engine's, and the host has nothing to do. -/
theorem idleBlockWaits : Obligations.IdleBlockWaits := fun _ hidle hscript hr =>
  step_waits hr (engineTurn_of_idle hidle) hscript

end Sys2Proof.Machine

/-! PROOFS. The family 70_reset_and_hazards.md: the reset event, and what STATUS shows of a command. First what is read right
after a reset and the lifecycle bits of STATUS, then the obligations. -/

namespace Sys2Proof.Machine

/-! ### The reset state (R200, R201) -/

/-- The reset event leaves the host's script and brings everything else back to where it is already. -/
theorem applyReset_reset_with_script (script : List HostAction) :
    applyReset { State.reset with script := script } = { State.reset with script := script } := rfl

theorem statusWord_applyReset (s : State) : statusWord (applyReset s) = 0 := by
  rw [statusWord, busy_of_idle (applyReset_phase s), applyReset_done, applyReset_ill, applyReset_ovr]
  rfl

/-- R201: no read is a draw after the reset, whatever was in flight, and every register holds zero. -/
theorem memRead_applyReset (r : Reg) (s : State) : memRead r (applyReset s) = 0 := by
  rw [memRead_of_idle (applyReset_phase s)]
  cases r with
  | status => exact statusWord_applyReset s
  | din | key | cmd | dout | rk0 | rk1 | rk2 => rfl

/-! ### BUSY and DONE as STATUS shows them (R24, R206) -/

theorem getLsbD_status_busy (s : State) : (memRead .status s).getLsbD 0 = decide (s.phase = .busy) := by
  rw [memRead_status, getLsbD_statusWord, if_pos rfl, busy_eq_decide]

theorem getLsbD_status_done (s : State) : (memRead .status s).getLsbD 1 = s.done := by
  rw [memRead_status, getLsbD_statusWord, if_neg Nat.one_ne_zero, if_pos rfl]

/-! ### The obligations -/

/-- Settles O31: acceptance sets PHASE and clears DONE in its own step, and the completion does the reverse. -/
theorem acceptanceIsVisibleInStatusAtOnce : Obligations.AcceptanceIsVisibleInStatusAtOnce := by
  intro s c ign hidle
  refine ⟨_, _, exec_command_of_idle hidle c ign, complete_accept_cmdWord c ign s, ?_⟩
  simp only [getLsbD_status_busy, getLsbD_status_done]
  refine ⟨?busy, ?notDone, ?idle, ?done⟩
  case busy => exact decide_eq_true (accept_phase s (cmdWord c ign))
  case notDone => exact accept_done s (cmdWord c ign)
  case idle => rw [completeCommand_phase]; rfl
  case done => exact completeCommand_done c _

/-- Settles O39: the raised line takes the step before the engine and the host (R184), and the state it leaves is IDLE, so
that no completion is due. -/
theorem resetClearsTheEngineAndAbandonsTheCommand : Obligations.ResetClearsTheEngineAndAbandonsTheCommand := by
  intro s hline
  refine ⟨applyReset s, step_reset hline, ?_⟩
  have hreads : ∀ reg, memRead reg (applyReset s) = 0 := fun reg => memRead_applyReset reg s
  have hnoCompletion : engineTurn (applyReset s) = false := engineTurn_of_idle (applyReset_phase s)
  simp [hreads, hnoCompletion]

/-- Settles O56: the reset state is what the reset event makes of itself, so the event's rules hold of it. -/
theorem resetStateIsSafe : Obligations.ResetStateIsSafe := by
  refine ⟨fun reg => memRead_applyReset reg State.reset, roundKeysInv_applyReset State.reset, fun script hwf => ?_⟩
  rw [← applyReset_reset_with_script]
  exact ⟨lifecycleInv_applyReset _, hwf⟩

end Sys2Proof.Machine

/-! PROOFS. The statements across the families: decoder and encoder as mutual inverses, the rows of the opcode table, the
word that a step runs, and the lifecycle invariant over every step. First the rules of the encoder and of the fetched word,
then the obligations. -/

namespace Sys2Proof.Machine

variable {s t : State} {w : HostWord} {i : Instr}

/-! ### The instructions by format (R60) -/

/-- The instruction of a transaction: a write where W = 1, a read where W = 0 (R67). -/
def busInstr (w : Bool) (r : Reg) (d : Block) : Instr := if w then .wr r d else .rd r d

/-- Every instruction is a command word's or a transaction's. -/
theorem instr_cases (i : Instr) : (∃ c ign, i = Command.instr c ign) ∨ ∃ w r d, i = busInstr w r d := by
  cases i with
  | enc ign => exact .inl ⟨.enc, ign, rfl⟩
  | dec ign => exact .inl ⟨.dec, ign, rfl⟩
  | keyexp ign => exact .inl ⟨.keyexp, ign, rfl⟩
  | gfmul ign => exact .inl ⟨.gfmul, ign, rfl⟩
  | sbox ign => exact .inl ⟨.sbox, ign, rfl⟩
  | sboxinv ign => exact .inl ⟨.sboxinv, ign, rfl⟩
  | rd r d => exact .inr ⟨false, r, d, rfl⟩
  | wr r d => exact .inr ⟨true, r, d, rfl⟩

theorem encode_instr (c : Command) (ign : BitVec 12) : encode (c.instr ign) = .cmdw (cmdWord c ign) := by
  cases c <;> rfl

theorem encode_busInstr (w : Bool) (r : Reg) (d : Block) : encode (busInstr w r d) = .bus (busWord w r d) := by
  cases w <;> rfl

theorem tableRow_instr (c : Command) (ign : BitVec 12) :
    tableRow (c.instr ign) = ⟨false, 0x000F, c.opcode.toNat⟩ := by
  cases c <;> rfl

theorem tableRow_busInstr (w : Bool) (r : Reg) (d : Block) :
    tableRow (busInstr w r d) = ⟨true, 0x80000, if w then 0x80000 else 0⟩ := by
  cases w <;> rfl

/-! ### Decoding and encoding (R61 to R64, R67) -/

theorem decode_cmdWord (c : Command) (ign : BitVec 12) :
    decode (.cmdw (cmdWord c ign)) = .ok (c.instr ign) := by
  simp only [decode, decodeCmdw, decodeCmd_cmdWord, ignField_cmdWord]

theorem decode_busWord (w : Bool) (r : Reg) (d : Block) :
    decode (.bus (busWord w r d)) = .ok (busInstr w r d) :=
  congrArg Except.ok (decodeBus_busWord w r d)

/-- A transaction word is its three fields put together again: no bit is outside them. -/
theorem busWord_fields (b : BusWord) :
    busWord (b.getLsbD 19) (Reg.ofIndex (b.extractLsb' 16 3)) (b.extractLsb' 0 16) = b := by
  rw [busWord, index_ofIndex]
  apply BitVec.eq_of_getLsbD_eq
  intro k hk
  rw [BitVec.getLsbD_append (x := BitVec.ofBool _), BitVec.getLsbD_append]
  by_cases hdata : k < 16
  · simp [hdata, show k < 19 by omega]
  by_cases hreg : k < 19
  · simp [hdata, hreg, show k - 16 < 3 by omega, show 16 + (k - 16) = k by omega]
  · obtain rfl : k = 19 := by omega
    simp

/-- A word that decodes is a command word put together from OP and IGN, or a transaction put together from W, REG and
DATA, and the instruction read has the same fields. -/
theorem decode_cases (h : decode w = .ok i) :
    (∃ c ign, w = .cmdw (cmdWord c ign) ∧ i = Command.instr c ign) ∨
    ∃ wr r d, w = .bus (busWord wr r d) ∧ i = busInstr wr r d := by
  cases w with
  | cmdw v =>
    simp only [decode, decodeCmdw] at h
    split at h
    · next c hc =>
      injection h with hi
      refine .inl ⟨c, ignField v, ?_, hi.symm⟩
      rw [cmdWord, decodeOp_eq_some _ _ hc, append_fields]
    · cases h
  | bus b =>
    injection h with hi
    exact .inr ⟨_, _, _, congrArg HostWord.bus (busWord_fields b).symm, hi.symm⟩

/-! ### The rows of the opcode table (R62, R67) -/

theorem fits_cmdw_iff (row : TableRow) (v : Block) :
    row.fits (.cmdw v) = true ↔ row.busFormat = false ∧ v.toNat &&& row.mask = row.pattern := by
  simp [TableRow.fits]

theorem fits_bus_iff (row : TableRow) (b : BusWord) :
    row.fits (.bus b) = true ↔ row.busFormat = true ∧ b.toNat &&& row.mask = row.pattern := by
  simp [TableRow.fits]

/-- The word of an instruction fits a row of the table exactly where the row is the instruction's: otherwise the formats
differ, or the fixed bits do. -/
theorem fits_encode_iff (i j : Instr) : (tableRow j).fits (encode i) = true ↔ tableRow j = tableRow i := by
  obtain ⟨c, ign, rfl⟩ | ⟨w, r, d, rfl⟩ := instr_cases i
  · rw [encode_instr, tableRow_instr, fits_cmdw_iff]
    obtain ⟨c', ign', rfl⟩ | ⟨w', r', d', rfl⟩ := instr_cases j
    · simp only [tableRow_instr, Laws.mask_cmdWord, TableRow.mk.injEq, true_and]
      exact eq_comm
    · simp [tableRow_busInstr]
  · rw [encode_busInstr, tableRow_busInstr, fits_bus_iff]
    obtain ⟨c', ign', rfl⟩ | ⟨w', r', d', rfl⟩ := instr_cases j
    · simp [tableRow_instr]
    · simp only [tableRow_busInstr, Laws.mask_busWord, TableRow.mk.injEq, true_and]
      exact eq_comm

/-! ### The word that a step runs (R80) -/

theorem runWord_of_decode (h : decode w = .ok i) (s : State) : runWord w s = exec i s := by
  simp only [runWord, h]

/-- A numbered word that decodes is a word of one of the formats. -/
theorem decodeTableWord_eq_some {nbits n : Nat} (h : decodeTableWord nbits n = some i) :
    ∃ w, hostWordOfTable nbits n = some w ∧ decode w = .ok i := by
  unfold decodeTableWord at h
  split at h
  · next w hw =>
    split at h
    · next j hj =>
      injection h with hji
      exact ⟨w, hw, hji ▸ hj⟩
    · cases h
  · cases h

theorem withFetchWord_of_word {nbits n : Nat} (h : hostWordOfTable nbits n = some w) (s : State) :
    s.withFetchWord nbits n = withPendingWord w s := by
  simp only [State.withFetchWord, withTableWord, h]

/-- A word put on the port is taken before a completion in flight. -/
theorem engineTurn_withPendingWord (w : HostWord) (s : State) : engineTurn (withPendingWord w s) = false := by
  cases hp : s.phase with
  | idle => exact engineTurn_of_idle hp
  | busy => simp [engineTurn, hp]

/-- Taking the word that was put on the port brings the script and the schedule back. -/
theorem hostTakes_withPendingWord (w : HostWord) (s : State) :
    hostTakes s.script (withPendingWord w s) = { s with resetLine := false } := by
  cases hp : s.phase <;> simp [hostTakes, withPendingWord, hp]

/-! ### Resets that come to the same (R200) -/

/-- The reset event reads only what is the host's, and the draw counter. -/
theorem applyReset_congr (hh : t.h = s.h) (hdefined : t.hDefined = s.hDefined) (hscript : t.script = s.script)
    (hdraws : t.draws = s.draws) : applyReset t = applyReset s := by
  simp only [applyReset, hh, hdefined, hscript, hdraws]

@[simp] theorem completeCommand_h (c : Command) (s : State) : (completeCommand c s).h = s.h := by
  rw [completeCommand_eq]

@[simp] theorem completeCommand_draws (c : Command) (s : State) : (completeCommand c s).draws = s.draws := by
  rw [completeCommand_eq]

/-! ### The obligations -/

/-- Settles O1, by the instruction's format. -/
theorem decodeOfEncodeIsTheInstruction : Obligations.DecodeOfEncodeIsTheInstruction := by
  intro i
  obtain ⟨c, ign, rfl⟩ | ⟨w, r, d, rfl⟩ := instr_cases i
  · rw [encode_instr, decode_cmdWord]
  · rw [encode_busInstr, decode_busWord]

/-- Settles O54, by what the step does: each of the reset, a completion and a window write keeps the invariant, and every
other step of the host leaves the lifecycle. -/
theorem stepKeepsTheLifecycle : Obligations.StepKeepsTheLifecycle := by
  intro s t hinv hstep
  obtain ⟨-, rfl⟩ | ⟨-, -, hcomplete⟩ | ⟨-, -, hhost⟩ := step_cases hstep
  · exact lifecycleInv_applyReset s
  · obtain ⟨c, -, rfl⟩ := complete_next hcomplete
    exact lifecycleInv_completeCommand hinv c
  · have htaken := lifecycleInv_hostTakes hinv
    obtain ⟨-, rest, r, v, -, -, rfl⟩ | ⟨-, rest, -, -, -, -, rfl⟩ | ⟨rest, -, -, rfl⟩ | ⟨-, -, rfl⟩ := hhost
    · exact lifecycleInv_memWrite (htaken rest) r v
    · exact htaken rest
    · exact htaken rest
    · exact hinv

/-- Settles O2: a word that decodes is put together from the fields it is read by. -/
theorem encodeOfDecodeIsTheWord : Obligations.EncodeOfDecodeIsTheWord := by
  intro w i hdecode
  obtain ⟨c, ign, rfl, rfl⟩ | ⟨wr, r, d, rfl, rfl⟩ := decode_cases hdecode
  · exact encode_instr c ign
  · exact encode_busInstr wr r d

/-- Settles O3: the word is the encoder's, and the encoder's words fit their own rows alone. -/
theorem decodedWordFitsExactlyItsTableRow : Obligations.DecodedWordFitsExactlyItsTableRow := by
  intro w i j hdecode
  rw [← encodeOfDecodeIsTheWord w i hdecode]
  exact fits_encode_iff i j

/-- Settles O40: a completion leaves what the reset event leaves. -/
theorem resetForgetsACompletion : Obligations.ResetForgetsACompletion := by
  intro s t hcomplete
  obtain ⟨c, -, rfl⟩ := complete_next hcomplete
  exact applyReset_congr (completeCommand_h c s) (completeCommand_hDefined c s) (completeCommand_script c s)
    (completeCommand_draws c s)

/-- Settles O6: each example word is the encoder's word of its instruction, so O1 reads it back. -/
theorem exampleWordsDecode : Obligations.ExampleWordsDecode :=
  have hback := decodeOfEncodeIsTheInstruction
  ⟨hback (.wr .key 0xA73B), hback (.wr .din 0x6F6B), hback (.wr .cmd 0x0001), hback (.rd .status 0),
    hback (.rd .dout 0), hback (.wr .status 0x000C), hback (.rd .rk2 0), hback (.enc 0), hback (.dec 0),
    hback (.keyexp 0), hback (.gfmul 0), hback (.sbox 0xFFF), hback (.sboxinv 1)⟩

/-- Settles O8: on the host's turn the step takes the word and runs it; a fetched word makes it the host's turn, and taking
it leaves the state it was put into. -/
theorem stepRunsTheDecodedInstruction : Obligations.StepRunsTheDecodedInstruction := by
  have hturn : ∀ (s : State) (w : HostWord) (rest : List HostAction) (i : Instr), s.resetLine = false →
      engineTurn s = false → s.script = .word w :: rest → decode w = .ok i → step s = exec i (hostTakes rest s) := by
    intro s w rest i hr he hs hdecode
    calc step s = runWord w (hostTakes rest s) := step_host hr he hs
      _ = exec i (hostTakes rest s) := runWord_of_decode hdecode _
  refine ⟨hturn, fun s nbits n i htable => ?_⟩
  obtain ⟨w, hword, hdecode⟩ := decodeTableWord_eq_some htable
  rw [withFetchWord_of_word hword, ← hostTakes_withPendingWord w s]
  exact hturn _ w s.script i rfl (engineTurn_withPendingWord w s) rfl hdecode

/-- Settles O9: both words are writes of CMD with the same value. -/
theorem commandWordIsAWriteOfCmd : Obligations.CommandWordIsAWriteOfCmd := by
  intro v s
  calc runWord (.cmdw v) s = .next (memWrite .cmd v s) := runWord_write rfl s
    _ = runWord (.bus (busWord true .cmd v)) s := (runWord_busWord_write .cmd v s).symm

end Sys2Proof.Machine
